-- ==== Sys2Proof/Word.lean ====
section
/-!
DEFINITION. The plainest types of the engine: 32-bit bus words, bytes and the document's bit vectors
(spec/00_scope.md R11, R12), with the two readings of a word as an integer (R13).
-/

namespace Sys2Proof

/-- A host-visible register or buffer word: bit 31 is the most significant (R12). -/
abbrev Word := BitVec 32

/-- One byte of a selector name (R10). -/
abbrev Byte := BitVec 8

/-- A bit vector of R11: element 0 comes first and is the left end. Its length is load-bearing. -/
abbrev Bits := List Bool

/-- `uint32(w)` of R13. -/
def uint32 (w : Word) : Nat := w.toNat

/-- `sint32(w)` of R13: the two's-complement value of a word. -/
def sint32 (w : Word) : Int := w.toInt

/-- `ceil(a/b)` of R13, for `b > 0`. -/
def ceilDiv (a b : Nat) : Nat := (a + b - 1) / b

end Sys2Proof
end

