-- ==== Sys2Proof/Config.lean ====
section
/-!
DEFINITION. What is fixed for one engine: the named constants of spec/00_scope.md R6, the open parameters of R8
with their constraints (R9, R10), and the free values of R16. The parameters and the free values are uninterpreted,
so nothing can be proved about the hardware's tables beyond their constraints (spec/91_not_in_source.md N1, N2, N12).
-/

namespace Sys2Proof

namespace Config

/-- ROUNDS_GEN: rounds of the Key Deriver (R6). UNVERIFIED literal (R7, log 14); unsafe. -/
def roundsGen : Nat := 3
/-- ROUNDS_ENC: rounds of ENC and of DEC (R6). UNVERIFIED literal (R7, log 14); unsafe. -/
def roundsEnc : Nat := 2
/-- COLS: columns of the transposition grid (R6). UNVERIFIED literal (R7, log 14); unsafe. -/
def cols : Nat := 4
/-- N_SEL: entries in the selector name table (R6). UNVERIFIED literal (R7, log 14); unsafe. -/
def nSel : Nat := 40
/-- KEY_FACTOR: key length divided by seed length (R6). UNVERIFIED literal (R7, log 14); unsafe. -/
def keyFactor : Nat := 4
/-- NIBBLE_BITS: bits per substitution unit (R6). UNVERIFIED literal (R7, log 14); unsafe. -/
def nibbleBits : Nat := 4
/-- SBOX_ENTRIES: entries of the S-box and of its inverse (R6). UNVERIFIED literal (R7, log 14); unsafe. -/
def sboxEntries : Nat := 16
/-- LEVEL_MOD: the resolved level is in 1..LEVEL_MOD (R6). UNVERIFIED literal (R7, log 14); unsafe. -/
def levelMod : Nat := 4
/-- LEVEL_BITS: width of the level encoding (R6). UNVERIFIED literal (R7, log 14); unsafe. -/
def levelBits : Nat := 3
/-- CHAR_BITS: bits per character of a selector name (R6). UNVERIFIED literal (R7, log 14); unsafe. -/
def charBits : Nat := 8
/-- RC_BITS: width of the round constant (R6). UNVERIFIED literal (R7, log 14); unsafe. -/
def rcBits : Nat := 8
/-- RC_MOD: modulus of the round constant (R6). UNVERIFIED literal (R7, log 14); unsafe. -/
def rcMod : Nat := 255
/-- ROT_LEVEL_MULT: level factor of the rotation (R6). UNVERIFIED literal (R7, log 14); unsafe. -/
def rotLevelMult : Nat := 7
/-- ROT_ROUND_MULT: round factor of the rotation (R6). UNVERIFIED literal (R7, log 14); unsafe. -/
def rotRoundMult : Nat := 11

/-- Elements per buffer word: every register and buffer word is 32 bits (spec/10_state.md R30, R40). -/
def wordBits : Nat := 32
/-- The largest S_MAX a 4 KiB buffer window allows (R8). -/
def sMaxLimit : Nat := 8192
/-- Bytes of the engine's block; BASE is a multiple of it (R8, spec/20_memory.md R70). -/
def blockBytes : Nat := 16384

end Config

/-- The open parameters of R8, as data. Entry `x` of `sbox` is SBOX[x]; entry `i` of `names` is NAMES[i]. -/
structure ParamData where
  sMax         : Nat
  sbox         : List Nat
  names        : List (List Byte)
  nameMaxBytes : Nat
  base         : Nat
  deriving DecidableEq, Repr

/-- The constraints of R8 to R10: 1 ≤ S_MAX ≤ 8192, SBOX a permutation of 0..15, exactly N_SEL names of at most
NAME_MAX_BYTES bytes each, BASE a multiple of the block's size. -/
abbrev ParamData.wf (d : ParamData) : Prop :=
  (1 ≤ d.sMax ∧ d.sMax ≤ Config.sMaxLimit) ∧
  d.sbox.Perm (List.range Config.sboxEntries) ∧
  d.names.length = Config.nSel ∧
  (∀ n ∈ d.names, n.length ≤ d.nameMaxBytes) ∧
  d.base % Config.blockBytes = 0

/-- A configuration: parameters that meet their constraints. A table that is no permutation cannot be built (R9). -/
structure Params where
  data : ParamData
  ok   : data.wf
  deriving DecidableEq, Repr

namespace Params

/-- S_MAX (R8): the largest seed length, in bits. -/
abbrev sMax (p : Params) : Nat := p.data.sMax
/-- SBOX (R8). -/
abbrev sbox (p : Params) : List Nat := p.data.sbox
/-- NAMES (R8). -/
abbrev names (p : Params) : List (List Byte) := p.data.names
/-- BASE (R8): the host byte address of the block. -/
abbrev base (p : Params) : Nat := p.data.base
/-- L_MAX = 4·S_MAX (R8): the largest key and block length, in bits. -/
def lMax (p : Params) : Nat := Config.keyFactor * p.sMax

end Params

namespace Config

/-- FREE: the hardware's S_MAX, brought into 1..8192 below (R8, D2; log 1). -/
opaque freeSMax : Nat
/-- FREE: the hardware's SBOX, any permutation of 0..15 (R8, R9, D3; log 1). -/
opaque freeSBox : Equiv.Perm (Fin sboxEntries)
/-- FREE: the hardware's NAME_MAX_BYTES (R8, D4; log 1). -/
opaque freeNameMaxBytes : Nat
/-- FREE: the hardware's names, cut to NAME_MAX_BYTES below (R8, R10, D4; log 1). -/
opaque freeName : Nat → List Byte
/-- FREE: the hardware's BASE divided by the block's size (R8, D33; log 1). -/
opaque freeBaseIndex : Nat

/-- FREE: the `k`-th draw of R16, any word under no law (log 4). -/
opaque draw : Nat → Word

/-- The hardware's parameters as data, each of them free within its constraint. -/
def hwData : ParamData where
  sMax         := freeSMax % sMaxLimit + 1
  sbox         := (List.finRange sboxEntries).map (fun x => (freeSBox x).val)
  names        := (List.range nSel).map (fun i => (freeName i).take freeNameMaxBytes)
  nameMaxBytes := freeNameMaxBytes
  base         := blockBytes * freeBaseIndex

theorem hwData_wf : hwData.wf := by
  refine ⟨⟨Nat.le_add_left .., ?_⟩, ?_, by simp [hwData], ?_, by simp [hwData]⟩
  · exact Nat.mod_lt _ (by decide)
  · have h := (Equiv.Perm.map_finRange_perm freeSBox).map Fin.val
    simpa [hwData, List.map_map, Function.comp_def] using h
  · intro n hn
    obtain ⟨i, -, rfl⟩ := List.mem_map.mp hn
    exact List.length_take_le ..

/-- The hardware's configuration (log 1). -/
def hw : Params := ⟨hwData, hwData_wf⟩

end Config
end Sys2Proof
end

