-- ==== Sys2Proof/Syntax.lean ====
section
/-!
DEFINITION. The syntax of everything that reaches the engine: the three commands (spec/30_encoding.md R105, one
constructor per row of opcode_table.json), the names of the registers and buffers (spec/20_memory.md R71), the host
transaction (R101) and the events of the one total order of spec/20_memory.md R80.
-/

namespace Sys2Proof

/-- The commands of R105. A command word carries no operand field (R102), so no constructor has an argument. -/
inductive Instr where
  /-- DERIVE, the Key Deriver (spec/41_key_derivation.md R140). -/
  | derive
  /-- ENCRYPT, the Forward Transform (spec/42_forward_transform.md R167). -/
  | encrypt
  /-- DECRYPT, the Inverse Transform (spec/43_inverse_transform.md R186). -/
  | decrypt
  deriving DecidableEq, Repr

/-- DIR of a host transaction (R101). -/
inductive Direction where
  | read
  | write
  deriving DecidableEq, Repr

/-- The three bit buffers (spec/10_state.md R40). -/
inductive BufferName where
  | seedBuf
  | keyBuf
  | dataBuf
  deriving DecidableEq, Repr

/-- The registers of the address map (R71). -/
inductive RegName where
  | param0
  | param1
  | cmd
  | status
  | seedLen
  | selector
  | level
  | keyLen
  | dataLen
  | resSel
  | resLevel
  deriving DecidableEq, Repr

/-- What a mapped offset names (R71): a register, or word `w` of a buffer. -/
inductive Target where
  | reg (r : RegName)
  | word (b : BufferName) (w : Nat)
  deriving DecidableEq, Repr

/-- A host transaction (R101) as the engine receives it: `off` is OFF, `size` the access width in bytes, `lanes` the
byte enables of the 32-bit port, `data` the word written (no meaning for a read). -/
structure Access where
  dir   : Direction
  off   : BitVec 14
  size  : Nat
  lanes : BitVec 4
  data  : Word
  deriving DecidableEq, Repr

/-- The events that happen to the engine, in one total order (R80, spec/60_exceptions.md R251). -/
inductive Event where
  /-- The engine receives one host access. -/
  | access (a : Access)
  /-- The engine takes one turn of the command it is running; the last turn is the completion. DESIGN CHOICE (log 2, 8). -/
  | engine
  /-- The platform asserts reset (spec/70_reset_and_hazards.md R270). -/
  | reset
  deriving DecidableEq, Repr

/-- A 32-bit read of offset `off` with all lanes. -/
def Access.readAt (off : BitVec 14) : Access := ⟨.read, off, 4, 0xF#4, 0#32⟩

/-- A 32-bit write of `w` to offset `off` with all lanes. -/
def Access.writeAt (off : BitVec 14) (w : Word) : Access := ⟨.write, off, 4, 0xF#4, w⟩

end Sys2Proof
end

