-- ==== Sys2Proof/WellFormed.lean ====
section
/-!
DEFINITION. Which terms of the syntax are well-formed: every command (it has no operand, spec/30_encoding.md R102)
and the host transactions whose shape the engine accepts (spec/20_memory.md R74, R78). The check of a configuration
is ParamData.wf in Config.lean.
-/

namespace Sys2Proof

/-- Every command is well-formed: it has no operand field that could be out of range (R102, R103). -/
abbrev Instr.wf : Instr → Prop
  | .derive  => True
  | .encrypt => True
  | .decrypt => True

/-- The shape rule of R74: a 32-bit access, all four byte lanes, at an offset that is a multiple of 4. -/
abbrev Access.wf (a : Access) : Prop :=
  a.size = 4 ∧ a.lanes = 0xF#4 ∧ a.off.toNat % 4 = 0

end Sys2Proof
end

