-- ==== Sys2Proof/Decode.lean ====
section
/-!
DEFINITION. The two formats the engine decodes (spec/30_encoding.md R100): the command word (R104 to R107) with its
encoder, and the offset of a host transaction (R101) by the address map of spec/20_memory.md R71, with the map from
names back to offsets. Both decoders are total and reject by name.
-/

namespace Sys2Proof

/-! ### The command word -/

/-- Every 32-bit word is exactly one of the three commands or illegal (R107). -/
inductive Decoded where
  | command (i : Instr)
  /-- The word is no row of R105 (R106); a CMD write of it is rejected with ILLEGAL_COMMAND (R243). Safe: the spec's own. -/
  | illegalCommand
  deriving DecidableEq, Repr

/-- R107: the decoder, all 32 bits compared. -/
def decode (w : Word) : Decoded :=
  if w = 0x00000001#32 then .command .derive
  else if w = 0x00000002#32 then .command .encrypt
  else if w = 0x00000003#32 then .command .decrypt
  else .illegalCommand

/-- The OP field of R105. -/
def opcode : Instr → BitVec 4
  | .derive  => 0x1#4
  | .encrypt => 0x2#4
  | .decrypt => 0x3#4

/-- The command word of R104: RSV = 0 in bits 31:4, OP in bits 3:0. -/
def encode (i : Instr) : Word := (0#28 ++ opcode i).cast (by decide)

/-- The command in a table word: `nbits` bits of `w`, bit 0 the least significant bit of the word; every bit above is 0.
CMD takes one whole 32-bit bus word, so no byte layout lies between (R104; spec/20_memory.md R74, R77). -/
def decodeTableWord (nbits w : Nat) : Option Instr :=
  match decode (BitVec.ofNat 32 (w % 2 ^ nbits)) with
  | .command i      => some i
  | .illegalCommand => none

/-! ### The address map -/

/-- The offset of a register (R71). -/
def RegName.offset : RegName → Nat
  | .param0   => 0x0000
  | .param1   => 0x0004
  | .cmd      => 0x0008
  | .status   => 0x000C
  | .seedLen  => 0x0010
  | .selector => 0x0014
  | .level    => 0x0018
  | .keyLen   => 0x001C
  | .dataLen  => 0x0020
  | .resSel   => 0x0024
  | .resLevel => 0x0028

/-- BUF_BASE of spec/20_memory.md R76. -/
def BufferName.base : BufferName → Nat
  | .seedBuf => 0x1000
  | .keyBuf  => 0x2000
  | .dataBuf => 0x3000

/-- SEED_WORDS, KEY_WORDS and DATA_WORDS of spec/10_state.md R40. -/
def BufferName.words (p : Params) : BufferName → Nat
  | .seedBuf => ceilDiv p.sMax Config.wordBits
  | .keyBuf  => ceilDiv p.lMax Config.wordBits
  | .dataBuf => ceilDiv p.lMax Config.wordBits

/-- The bits a buffer holds, 32 a word (spec/10_state.md R40). -/
def BufferName.bits (p : Params) (n : BufferName) : Nat := Config.wordBits * n.words p

/-- The offset of a register or buffer word (R71, R76). -/
def Target.offset : Target → Nat
  | .reg r    => r.offset
  | .word b w => b.base + 4 * w

/-- The registers in the order of R71. -/
def RegName.all : List RegName :=
  [.param0, .param1, .cmd, .status, .seedLen, .selector, .level, .keyLen, .dataLen, .resSel, .resLevel]

/-- Word `w` of `b`, where the engine has it; the rest of the buffer's window is reserved (R71). -/
def decodeWindow (p : Params) (b : BufferName) (off : Nat) : Option Target :=
  let w := (off - b.base) / 4
  if off % 4 = 0 ∧ w < b.words p then some (.word b w) else none

/-- What an offset names, or `none` where R71 says reserved. -/
def decodeOffset (p : Params) (off : BitVec 14) : Option Target :=
  let a := off.toNat
  if a < BufferName.seedBuf.base then (RegName.all.find? (fun r => r.offset = a)).map .reg
  else if a < BufferName.keyBuf.base then decodeWindow p .seedBuf a
  else if a < BufferName.dataBuf.base then decodeWindow p .keyBuf a
  else decodeWindow p .dataBuf a

/-- The host-write column of R71: `false` where it says bus error. -/
def RegName.writable : RegName → Bool
  | .param0   => false
  | .param1   => false
  | .cmd      => true
  | .status   => false
  | .seedLen  => true
  | .selector => true
  | .level    => true
  | .keyLen   => true
  | .dataLen  => true
  | .resSel   => false
  | .resLevel => false

/-- The registers a read returns truly whatever BUSY is (spec/20_memory.md R72 steps 2 and 3). -/
def RegName.readsWhileBusy : RegName → Bool
  | .param0   => true
  | .param1   => true
  | .cmd      => true
  | .status   => true
  | .seedLen  => false
  | .selector => false
  | .level    => false
  | .keyLen   => false
  | .dataLen  => false
  | .resSel   => false
  | .resLevel => false

/-- Every buffer word the engine has is writable (R71). -/
def Target.writable : Target → Bool
  | .reg r    => r.writable
  | .word _ _ => true

/-- Which accesses R71 maps: any mapped offset for a read, a writable one for a write. -/
def Target.permits (t : Target) : Direction → Bool
  | .read  => true
  | .write => t.writable

/-- The offset the engine sees of a host byte address: bits 13:0, where the bits above select this engine's BASE
(R101; spec/20_memory.md R70); `none` where they select something else, the platform's concern (log 13). -/
def decodeAddress (p : Params) (addr : Nat) : Option (BitVec 14) :=
  if addr / Config.blockBytes = p.base / Config.blockBytes then some (BitVec.ofNat 14 addr) else none

end Sys2Proof
end

