-- ==== Sys2Proof/Machine/State.lean ====
section
/-!
DEFINITION. Everything the engine holds (spec/10_state.md R30 to R60): the registers, STATUS, the three bit buffers
and the hidden sequencer, all as plain data, with the reasons a step can stop and the state after reset. The
configuration (log 1) and the model's own inbox, read record and draw counter (log 2, 3, 4) stand beside them.
-/

namespace Sys2Proof.Machine

/-- Element numbers and values of the elements that hold 0 or 1, numbers strictly rising; an element that is not
listed is ⊥ (spec/10_state.md R41). DESIGN CHOICE of representation (log 9). -/
abbrev Buffer := List (Nat × Bool)

/-- The three bit buffers (R40). -/
structure Memory where
  seedBuf : Buffer
  keyBuf  : Buffer
  dataBuf : Buffer
  deriving DecidableEq, Repr

/-- The stored fields of STATUS (R34). BUSY is PHASE = RUNNING (R50, log 7); bits 31:8 read 0. -/
structure Status where
  done  : Bool
  err   : Bool
  ovr   : Bool
  ecode : BitVec 4
  deriving DecidableEq, Repr

/-- The error codes the engine produces (spec/60_exceptions.md R240); 4 to 15 are never produced. -/
inductive ErrorCode where
  | lengthMismatch
  | illegalCommand
  | lengthRange
  deriving DecidableEq, Repr

/-- The operands DERIVE captures (spec/30_encoding.md R102, spec/41_key_derivation.md R131). -/
structure DeriveOperands where
  n    : Nat
  seed : Bits
  sRaw : Int
  lRaw : Int
  deriving DecidableEq, Repr

/-- The operands ENCRYPT and DECRYPT capture (R102; spec/42_forward_transform.md R160, spec/43_inverse_transform.md
R180); `text` is the block or the ciphertext. -/
structure TransformOperands where
  len  : Nat
  key  : Bits
  text : Bits
  deriving DecidableEq, Repr

/-- CUR with its operand snapshot (spec/10_state.md R50, spec/70_reset_and_hazards.md R281). -/
inductive Job where
  | derive (ops : DeriveOperands)
  | encrypt (ops : TransformOperands)
  | decrypt (ops : TransformOperands)
  deriving DecidableEq, Repr

/-- The position within a round: which of its four steps comes next (R50; R139, R166, R181). -/
inductive Position where
  | step1
  | step2
  | step3
  | step4
  deriving DecidableEq, Repr

/-- The hidden sequencer while RUNNING (R50): CUR and its snapshot, the working vector s, the number of rounds
finished (the round index r of DERIVE and ENCRYPT; see log 8 for DECRYPT) and the position within the round. -/
structure Running where
  job   : Job
  work  : Bits
  round : Nat
  pos   : Position
  deriving DecidableEq, Repr

/-- PHASE (R50). -/
inductive Phase where
  | idle
  | running (r : Running)
  deriving DecidableEq, Repr

/-- Why the model stops. -/
inductive Fault where
  /-- UNDEFINED_OPERAND(buffer, element) of spec/60_exceptions.md R248, raised by a command that is accepted while its
  operand range holds a ⊥ element. Safe: the hardware goes on with whatever its storage holds (log 5). -/
  | undefinedOperand (buf : BufferName) (element : Nat)
  /-- BUS_ERROR(offset, direction) of R249, raised by a host access that spec/20_memory.md R74 or R71 rejects. Safe: a
  host may go on after the error response, and the engine's state is unchanged (log 6). -/
  | busError (off : BitVec 14) (dir : Direction)
  deriving DecidableEq, Repr

/-- Why the model refuses an instruction. -/
inductive Refusal where
  /-- Raised by an arm of exec whose instruction has no meaning yet; no arm does. Safe. -/
  | notModelled (mnemonic : String)
  deriving DecidableEq, Repr

/-- The machine's state. PARAM0, PARAM1 and CMD hold nothing of their own (R31 to R33, log 11). -/
structure State where
  /-- The configuration, constant (R56, log 1). -/
  cfg      : Params
  /-- STATUS (R34). -/
  status   : Status
  /-- SEED_LEN (R35). -/
  seedLen  : Word
  /-- SELECTOR (R36). -/
  selector : Word
  /-- LEVEL (R37). -/
  level    : Word
  /-- KEY_LEN (R38). -/
  keyLen   : Word
  /-- DATA_LEN (R39). -/
  dataLen  : Word
  /-- RES_SEL bits 5:0 (R42). -/
  resSel   : BitVec 6
  /-- RES_LEVEL bits 2:0 (R43). -/
  resLevel : BitVec 3
  /-- SEED_BUF, KEY_BUF and DATA_BUF (R40). -/
  mem      : Memory
  /-- PHASE and the hidden sequencer (R50). -/
  phase    : Phase
  /-- The model's own: the events still to come, oldest first (spec/20_memory.md R80, log 2). -/
  inbox    : List Event
  /-- The model's own: the words the host's reads returned, newest first (R101 DATA, log 3). -/
  returned : List Word
  /-- The model's own: how many reads have been answered, the argument of the next draw (R16, log 4). -/
  draws    : Nat
  deriving DecidableEq, Repr

/-- Nothing written: every element is ⊥ (R41). -/
def Memory.empty : Memory := ⟨[], [], []⟩

/-- STATUS = 0x00000000 (R34, R60), BUSY apart. -/
def Status.clear : Status := ⟨false, false, false, 0#4⟩

/-- The state right after reset (R60; spec/70_reset_and_hazards.md R273): the hardware's configuration and nothing in
the model's own fields (log 1, 10). -/
def State.reset : State where
  cfg      := Config.hw
  status   := Status.clear
  seedLen  := 0x00000000#32
  selector := 0x00000000#32
  level    := 0x00000001#32
  keyLen   := 0x00000000#32
  dataLen  := 0x00000000#32
  resSel   := 0#6
  resLevel := 0#3
  mem      := Memory.empty
  phase    := .idle
  inbox    := []
  returned := []
  draws    := 0

end Sys2Proof.Machine
end

