-- ==== Sys2Proof/Machine/Flags.lean ====
section
/-!
DEFINITION. The STATUS register: its codes, its word and the changes of its fields (spec/10_state.md R34, R45;
spec/60_exceptions.md R240). The engine has no other flag.
-/

namespace Sys2Proof.Machine

/-- ECODE of an error (R240). -/
def ErrorCode.code : ErrorCode → BitVec 4
  | .lengthMismatch => 1#4
  | .illegalCommand => 2#4
  | .lengthRange    => 3#4

/-- BUSY is 1 exactly when PHASE is RUNNING (spec/10_state.md R50, log 7). -/
def Phase.busy : Phase → Bool
  | .idle      => false
  | .running _ => true

/-- STATUS.BUSY (R34). -/
def State.busy (s : State) : Bool := s.phase.busy

/-- The STATUS word (R34): BUSY bit 0, DONE bit 1, ERR bit 2, OVR bit 3, ECODE bits 7:4, the rest 0. -/
def Status.word (st : Status) (busy : Bool) : Word :=
  (0#24 ++ st.ecode ++ BitVec.ofBool st.ovr ++ BitVec.ofBool st.err ++ BitVec.ofBool st.done
    ++ BitVec.ofBool busy).cast (by decide)

/-- STATUS after the rejection of a command (spec/60_exceptions.md R243): DONE, ERR and ECODE set, OVR cleared. -/
def Status.rejected (e : ErrorCode) : Status := ⟨true, true, false, e.code⟩

/-- STATUS after a dropped write: the sticky OVR set (spec/70_reset_and_hazards.md R284). -/
def Status.overrun (st : Status) : Status := { st with ovr := true }

/-- STATUS after a completion: DONE set, ERR unchanged (R282). -/
def Status.completed (st : Status) : Status := { st with done := true }

end Sys2Proof.Machine
end

