-- ==== Sys2Proof/Machine/Primitives.lean ====
section
/-!
DEFINITION. The shared primitives of spec/44_shared_primitives.md (R200 to R217) and the number-to-bits conversion of
spec/00_scope.md R14, as total functions on bit vectors. Every primitive is the identity on the empty vector.
-/

namespace Sys2Proof.Machine

/-- `bitsK(x)` of R14: the `k` binary digits of `x`, most significant first. -/
def bitsK (k x : Nat) : Bits :=
  (List.range k).map (fun t => x / 2 ^ (k - 1 - t) % 2 == 1)

/-- `val(b)` of R14: the inverse of `bitsK`, the first element most significant. -/
def val (b : Bits) : Nat := b.foldl (fun a x => 2 * a + x.toNat) 0

/-- The XOR of two vectors of equal length (R200). -/
def xorVec (a b : Bits) : Bits := List.zipWith Bool.xor a b

/-- `tile(v, L)` of R201, used only where `v` is not empty. -/
def tile (v : Bits) (L : Nat) : Bits :=
  (List.range L).map (fun i => v.getD (i % v.length) false)

/-! ### Substitution -/

/-- Entry `x` of a 16-entry table (R202); `x` is a nibble, so the entry exists. -/
def lookup (table : List Nat) (x : Nat) : Nat := table.getD x 0

/-- INV_SBOX from SBOX (spec/00_scope.md R9): entry `y` is the `x` with `table[x] = y`. DEDUCED, log 15. -/
def invTable (table : List Nat) : List Nat :=
  (List.range Config.sboxEntries).map (fun y => table.idxOf y)

/-- `nib(s, k)` of R203. -/
def nib (s : Bits) (k : Nat) : Nat :=
  val ((s.drop (Config.nibbleBits * k)).take Config.nibbleBits)

/-- `subNibbles(T, s)` of R204: each full nibble is replaced, a partial last nibble is left untouched
(spec/90_conflicts.md C1; R220). -/
def subNibbles (table : List Nat) (s : Bits) : Bits :=
  (List.range (s.length / Config.nibbleBits)).flatMap
    (fun k => bitsK Config.nibbleBits (lookup table (nib s k)))
  ++ s.drop (Config.nibbleBits * (s.length / Config.nibbleBits))

/-- `namebits(b)` of R205: 8 bits per byte, most significant first, bytes in order. -/
def namebits (name : List Byte) : Bits :=
  name.flatMap (fun b => bitsK Config.charBits b.toNat)

/-! ### Key Deriver diffusion -/

/-- `rotl(s, k)` of R207: the element at index `k` moves to index 0. -/
def rotl (s : Bits) (k : Nat) : Bits := s.drop k ++ s.take k

/-- `feedback(s)` of R208: every element is XORed with the pre-step value circularly before it. -/
def feedback (s : Bits) : Bits := xorVec s (s.drop (s.length - 1) ++ s)

/-! ### Cascades -/

/-- The running XOR from the left, `prev` being the element already updated before the list. -/
def fwdCascadeFrom (prev : Bool) : Bits → Bits
  | []      => []
  | x :: xs => (x ^^ prev) :: fwdCascadeFrom (x ^^ prev) xs

/-- `fwdCascade(s)` of R210: each element is XORed with the already updated one before it. -/
def fwdCascade : Bits → Bits
  | []      => []
  | x :: xs => x :: fwdCascadeFrom x xs

/-- `bwdCascade(s)` of R211: each element is XORed with the already updated one after it. -/
def bwdCascade : Bits → Bits
  | []      => []
  | x :: xs =>
    match bwdCascade xs with
    | []      => [x]
    | y :: ys => (x ^^ y) :: y :: ys

/-- `invBwdCascade(s)` of R212: each element but the last is XORed with the original one after it. -/
def invBwdCascade : Bits → Bits
  | []           => []
  | [x]          => [x]
  | x :: y :: xs => (x ^^ y) :: invBwdCascade (y :: xs)

/-- The rest of the inverse forward cascade, `prev` being the original element before the list. -/
def invFwdCascadeFrom (prev : Bool) : Bits → Bits
  | []      => []
  | x :: xs => (x ^^ prev) :: invFwdCascadeFrom x xs

/-- `invFwdCascade(s)` of R213: each element but the first, the last one included (spec/90_conflicts.md C5), is XORed
with the original one before it. -/
def invFwdCascade : Bits → Bits
  | []      => []
  | x :: xs => x :: invFwdCascadeFrom x xs

/-! ### Columnar transposition -/

/-- The indices of column `c` of the grid for length `L`, top to bottom, cells beyond `L` skipped (R215). -/
def column (L c : Nat) : List Nat :=
  ((List.range (ceilDiv L Config.cols)).map (fun r => Config.cols * r + c)).filter (fun i => i < L)

/-- `perm_L` of R215: the grid filled row by row and read column by column. The one definition of both directions
(R219). -/
def perm (L : Nat) : List Nat := (List.range Config.cols).flatMap (column L)

/-- `transpose(s)` of R216: element `k` is `s[perm_L[k]]`. -/
def transpose (s : Bits) : Bits := (perm s.length).map (fun i => s.getD i false)

/-- `invTranspose(s)` of R217: element `perm_L[k]` is `s[k]`. -/
def invTranspose (s : Bits) : Bits :=
  (List.range s.length).map (fun i => s.getD ((perm s.length).idxOf i) false)

end Sys2Proof.Machine
end

