-- ==== Sys2Proof/Machine/Ops.lean ====
section
/-!
DEFINITION. The named operations over the buffers, the registers and the sequencer: reading and writing elements and
words (spec/10_state.md R41, spec/20_memory.md R76), registers (R72, R73), and the issue of a command (R280) with its
rejection, which takes the place of an exception here (spec/60_exceptions.md R243), and its acceptance. The return
from a rejection is the clearing of STATUS by the next CMD write (R246), part of both.
-/

namespace Sys2Proof.Machine

/-! ### Buffers -/

/-- Element `j`, or `none` where it is ⊥ (spec/10_state.md R41). -/
def Buffer.bit (b : Buffer) (j : Nat) : Option Bool := List.lookup j b

/-- The cells of a vector whose element 0 is element `start` of a buffer. -/
def cellsFrom : Nat → Bits → Buffer
  | _, []          => []
  | start, x :: xs => (start, x) :: cellsFrom (start + 1) xs

/-- The buffer with elements `start` to `start + |v| - 1` taking `v`; every other element keeps its value (R15, R44). -/
def Buffer.putVec (b : Buffer) (start : Nat) (v : Bits) : Buffer :=
  b.filter (fun c => c.1 < start) ++ cellsFrom start v ++ b.filter (fun c => start + v.length ≤ c.1)

/-- Canonical form: element numbers strictly rising. No cell holds ⊥, so equal contents are equal lists. -/
abbrev Buffer.wf (b : Buffer) : Prop := b.Pairwise (fun c d => c.1 < d.1)

/-- The canonical form of all three buffers. -/
abbrev Memory.wf (m : Memory) : Prop :=
  Buffer.wf m.seedBuf ∧ Buffer.wf m.keyBuf ∧ Buffer.wf m.dataBuf

/-- Every listed element is one the buffer has (R40). -/
abbrev Buffer.within (b : Buffer) (size : Nat) : Prop := ∀ c ∈ b, c.1 < size

/-- Every listed element of every buffer is one that buffer has. -/
abbrev Memory.within (m : Memory) (p : Params) : Prop :=
  Buffer.within m.seedBuf (BufferName.bits p .seedBuf) ∧
  Buffer.within m.keyBuf (BufferName.bits p .keyBuf) ∧
  Buffer.within m.dataBuf (BufferName.bits p .dataBuf)

/-- The buffer of a name (R40). -/
def Memory.get (m : Memory) : BufferName → Buffer
  | .seedBuf => m.seedBuf
  | .keyBuf  => m.keyBuf
  | .dataBuf => m.dataBuf

/-- One buffer replaced. -/
def Memory.set (m : Memory) (n : BufferName) (b : Buffer) : Memory :=
  match n with
  | .seedBuf => { m with seedBuf := b }
  | .keyBuf  => { m with keyBuf := b }
  | .dataBuf => { m with dataBuf := b }

/-- The 32 elements of a word: element `t` is bit 31 - t (spec/20_memory.md R76). -/
def wordElements (w : Word) : Bits := bitsK Config.wordBits w.toNat

/-- The word of 32 elements, element 0 in bit 31 (R76). -/
def wordOfElements (v : Bits) : Word := BitVec.ofNat 32 (val v)

/-- Word `k` of a buffer as a host read returns it: a ⊥ element reads as its bit of the draw `d` (R72 step 5). -/
def Buffer.readWord (b : Buffer) (k : Nat) (d : Word) : Word :=
  wordOfElements ((List.range Config.wordBits).map
    (fun t => (Buffer.bit b (Config.wordBits * k + t)).getD (d.getMsbD t)))

/-- Word `k` of a buffer taking all 32 bits of `w` (R73 step 5). -/
def Buffer.writeWord (b : Buffer) (k : Nat) (w : Word) : Buffer :=
  Buffer.putVec b (Config.wordBits * k) (wordElements w)

/-! ### Registers and buffer words on the bus -/

/-- PARAM0: S_MAX in bits 15:0, 31:16 read 0 (spec/10_state.md R31). -/
def param0 (p : Params) : Word := (0#16 ++ BitVec.ofNat 16 p.sMax).cast (by decide)

/-- PARAM1: N_SEL, COLS, ROUNDS_ENC and ROUNDS_GEN, one byte each (R32). -/
def param1 : Word :=
  (BitVec.ofNat 8 Config.nSel ++ BitVec.ofNat 8 Config.cols ++ BitVec.ofNat 8 Config.roundsEnc
    ++ BitVec.ofNat 8 Config.roundsGen).cast (by decide)

/-- The value of a register; reserved bits read 0 (R31 to R43). -/
def State.regValue (s : State) : RegName → Word
  | .param0   => param0 s.cfg
  | .param1   => param1
  | .cmd      => 0x00000000#32
  | .status   => s.status.word s.busy
  | .seedLen  => s.seedLen
  | .selector => s.selector
  | .level    => s.level
  | .keyLen   => s.keyLen
  | .dataLen  => s.dataLen
  | .resSel   => s.resSel.setWidth 32
  | .resLevel => s.resLevel.setWidth 32

/-- The word a host read of a target returns (R72; spec/70_reset_and_hazards.md R285). Draws are free (log 4). -/
def State.readTarget (s : State) : Target → Word
  | .reg r    => if s.busy && !r.readsWhileBusy then Config.draw s.draws else s.regValue r
  | .word b k =>
    if s.busy then Config.draw s.draws else Buffer.readWord (s.mem.get b) k (Config.draw s.draws)

/-- The host takes the word its read returned; nothing of the engine changes (R72, R79). -/
def State.answer (s : State) (w : Word) : State :=
  { s with returned := w :: s.returned, draws := s.draws + 1 }

/-- A host write of a register that stores its word, all 32 bits unchanged (R73 step 4; R35 to R39, R43). A register
that R71 does not let the host store to is left as it is; no host write reaches here with one. -/
def State.writeReg (s : State) (r : RegName) (w : Word) : State :=
  match r with
  | .seedLen  => { s with seedLen := w }
  | .selector => { s with selector := w }
  | .level    => { s with level := w }
  | .keyLen   => { s with keyLen := w }
  | .dataLen  => { s with dataLen := w }
  | .param0   => s
  | .param1   => s
  | .cmd      => s
  | .status   => s
  | .resSel   => s
  | .resLevel => s

/-- One buffer of the state replaced. -/
def State.setBuffer (s : State) (b : BufferName) (v : Buffer) : State :=
  { s with mem := s.mem.set b v }

/-- A host write of a buffer word (R73 step 5). -/
def State.writeWord (s : State) (b : BufferName) (k : Nat) (w : Word) : State :=
  s.setBuffer b (Buffer.writeWord (s.mem.get b) k w)

/-! ### Commands -/

/-- A host write that arrives while BUSY = 1 is dropped and sets OVR (spec/70_reset_and_hazards.md R284). -/
def State.dropWrite (s : State) : State := { s with status := s.status.overrun }

/-- The rejection of a command (spec/60_exceptions.md R243): STATUS records the code and nothing else changes. -/
def State.reject (s : State) (e : ErrorCode) : State := { s with status := Status.rejected e }

/-- The acceptance of a command (R280): DONE, ERR, OVR and ECODE cleared, PHASE RUNNING with the snapshot taken. -/
def State.accept (s : State) (r : Running) : State :=
  { s with status := Status.clear, phase := .running r }

/-- The issue of a command (R280), given what its checks find (R244) and its operands (R281): dropped while BUSY
(R284), rejected if a check fails, the fault UNDEFINED_OPERAND if an operand element is ⊥ (R248), else accepted. -/
def issue (s : State) (check : Option ErrorCode) (start : Except Fault Running) :
    Host.Outcome State Fault Refusal :=
  if s.busy then .next s.dropWrite
  else
    match check with
    | some e => .next (s.reject e)
    | none =>
      match start with
      | .error f => .fault f
      | .ok r    => .next (s.accept r)

end Sys2Proof.Machine
end

