-- ==== Sys2Proof/Machine/Operands.lean ====
section
/-!
DEFINITION. The operand forms of spec/30_encoding.md R102: lengths as unsigned words, selector and level as signed
words, vectors from element 0 of their buffer, with the length checks of spec/60_exceptions.md R241, R242 and R244.
-/

namespace Sys2Proof.Machine

/-- Elements `start` to `start + n - 1` of a buffer, or the first of them that is ⊥. -/
def Buffer.vecFrom (b : Buffer) : Nat → Nat → Except Nat Bits
  | _, 0         => .ok []
  | start, n + 1 =>
    match Buffer.bit b start with
    | none   => .error start
    | some x =>
      match Buffer.vecFrom b (start + 1) n with
      | .error j => .error j
      | .ok v    => .ok (x :: v)

/-- `BUF.vec(L)` of R15, or UNDEFINED_OPERAND with the lowest ⊥ element (R248). DEDUCED, log 5. -/
def Memory.vec (m : Memory) (n : BufferName) (L : Nat) : Except Fault Bits :=
  match Buffer.vecFrom (m.get n) 0 L with
  | .error j => .error (.undefinedOperand n j)
  | .ok v    => .ok v

/-- DERIVE's operands (R102, R131). -/
def State.deriveOperands (s : State) : Except Fault DeriveOperands :=
  match s.mem.vec .seedBuf (uint32 s.seedLen) with
  | .error f => .error f
  | .ok seed => .ok ⟨uint32 s.seedLen, seed, sint32 s.selector, sint32 s.level⟩

/-- The operands of ENCRYPT and DECRYPT when the lengths are equal (R102, R160, R180): the key is read first, as in
the pseudocode of R167 and R186. DEDUCED, log 5. -/
def State.transformOperands (s : State) : Except Fault TransformOperands :=
  match s.mem.vec .keyBuf (uint32 s.keyLen) with
  | .error f => .error f
  | .ok key  =>
    match s.mem.vec .dataBuf (uint32 s.keyLen) with
    | .error f => .error f
    | .ok text => .ok ⟨uint32 s.keyLen, key, text⟩

/-- DERIVE's check: LENGTH_RANGE when SEED_LEN exceeds S_MAX (R242). -/
def State.deriveCheck (s : State) : Option ErrorCode :=
  if uint32 s.seedLen > s.cfg.sMax then some .lengthRange else none

/-- The checks of ENCRYPT and DECRYPT in the order of R244: LENGTH_RANGE (R242), then LENGTH_MISMATCH (R241). -/
def State.transformCheck (s : State) : Option ErrorCode :=
  if uint32 s.keyLen > s.cfg.lMax ∨ uint32 s.dataLen > s.cfg.lMax then some .lengthRange
  else if uint32 s.keyLen ≠ uint32 s.dataLen then some .lengthMismatch
  else none

end Sys2Proof.Machine
end

