-- ==== Sys2Proof/Machine/Decrypt.lean ====
section
/-!
DEFINITION. DECRYPT, the Inverse Transform (spec/43_inverse_transform.md R180 to R189).
-/

namespace Sys2Proof.Machine

/-- One of the four steps of a round (R182 to R185); no step reads the round index (R181). -/
def decryptStep (p : Params) (pos : Position) (s : Bits) : Bits :=
  match pos with
  | .step1 => invTranspose s
  | .step2 => invBwdCascade s
  | .step3 => invFwdCascade s
  | .step4 => subNibbles (invTable p.sbox) s

/-- One round (R181). -/
def decryptRound (p : Params) (s : Bits) : Bits :=
  decryptStep p .step4 (decryptStep p .step3 (decryptStep p .step2 (decryptStep p .step1 s)))

/-- The working vector starts as the ciphertext; no whitening at the start (R180). -/
def decryptInitial (ops : TransformOperands) : Bits := ops.text

/-- The removal of the whitening after the last round (R187). -/
def unwhiten (ops : TransformOperands) (s : Bits) : Bits := xorVec s ops.key

/-- DEC(key, cipher) (R186): ROUNDS_ENC rounds, then the whitening removed. -/
def decryptBlock (p : Params) (ops : TransformOperands) : Bits :=
  unwhiten ops ((List.range Config.roundsEnc).foldl (fun s _ => decryptRound p s) (decryptInitial ops))

/-- DECRYPT's sequencer at acceptance (spec/10_state.md R50). -/
def decryptStart (ops : TransformOperands) : Running :=
  ⟨.decrypt ops, decryptInitial ops, 0, .step1⟩

/-- The output of DECRYPT: DATA_BUF elements 0..L-1 (R189). Nothing is stripped (R191, spec/90_conflicts.md C3). -/
def State.commitDecrypt (s : State) (block : Bits) : State :=
  s.setBuffer .dataBuf (Buffer.putVec s.mem.dataBuf 0 block)

/-- DECRYPT issued by a CMD write (R186; spec/70_reset_and_hazards.md R280). -/
def execDecrypt (s : State) : Host.Outcome State Fault Refusal :=
  issue s s.transformCheck (s.transformOperands.map decryptStart)

end Sys2Proof.Machine
end

