-- ==== Sys2Proof/Machine/Derive.lean ====
section
/-!
DEFINITION. DERIVE, the Key Deriver (spec/41_key_derivation.md R131 to R142).
-/

namespace Sys2Proof.Machine

/-- The resolved selector index (R132): over the integers with floor modulo, so always in 0..N_SEL-1. -/
def resolveSelector (sRaw : Int) : Nat := ((sRaw - 1) % (Config.nSel : Int)).toNat

/-- The resolved level (R133): over the integers with floor modulo, so always in 1..LEVEL_MOD. -/
def resolveLevel (lRaw : Int) : Nat := ((lRaw - 1) % (Config.levelMod : Int)).toNat + 1

/-- The resolved name NAMES[sel] (R132); the table has an entry for every resolved index (R10). -/
def resolvedName (p : Params) (sel : Nat) : List Byte := p.names.getD sel []

/-- The auxiliary bits (R134): the name's bits, then the level code. -/
def auxBits (p : Params) (sel lvl : Nat) : Bits :=
  namebits (resolvedName p sel) ++ bitsK Config.levelBits lvl

/-- The combination (R135). -/
def combine (p : Params) (sel lvl : Nat) (seed : Bits) : Bits :=
  xorVec seed (tile (auxBits p sel lvl) seed.length)

/-- The expansion (R136): KEY_FACTOR copies of the combined seed. -/
def expand (c : Bits) : Bits := tile c (Config.keyFactor * c.length)

/-- The round constant (R137), from the resolved selector and level. -/
def roundConstant (sel lvl r : Nat) : Nat := (sel * (r + 1) + lvl) % Config.rcMod

/-- The rotation amount (R138) for a state of length `L`. -/
def rotation (lvl r L : Nat) : Nat :=
  (lvl * Config.rotLevelMult + r * Config.rotRoundMult) % L

/-- One of the four steps of round `r` (R139). -/
def deriveStep (p : Params) (sel lvl r : Nat) (pos : Position) (s : Bits) : Bits :=
  match pos with
  | .step1 => xorVec s (tile (bitsK Config.rcBits (roundConstant sel lvl r)) s.length)
  | .step2 => subNibbles p.sbox s
  | .step3 => rotl s (rotation lvl r s.length)
  | .step4 => feedback s

/-- Round `r`: its four steps in order (R139). -/
def deriveRound (p : Params) (sel lvl : Nat) (s : Bits) (r : Nat) : Bits :=
  deriveStep p sel lvl r .step4 (deriveStep p sel lvl r .step3
    (deriveStep p sel lvl r .step2 (deriveStep p sel lvl r .step1 s)))

/-- The working vector before the first round (R135, R136); an empty seed takes none of these steps (R142). -/
def deriveInitial (p : Params) (ops : DeriveOperands) : Bits :=
  if ops.n = 0 then []
  else expand (combine p (resolveSelector ops.sRaw) (resolveLevel ops.lRaw) ops.seed)

/-- The rounds DERIVE runs: ROUNDS_GEN (R139), none for an empty seed (R142). -/
def deriveRounds (ops : DeriveOperands) : Nat := if ops.n = 0 then 0 else Config.roundsGen

/-- The key (R140): the pseudocode as one function of the operands. -/
def deriveKey (p : Params) (ops : DeriveOperands) : Bits :=
  (List.range (deriveRounds ops)).foldl
    (deriveRound p (resolveSelector ops.sRaw) (resolveLevel ops.lRaw)) (deriveInitial p ops)

/-- DERIVE's sequencer at acceptance (spec/10_state.md R50). -/
def deriveStart (p : Params) (ops : DeriveOperands) : Running :=
  ⟨.derive ops, deriveInitial p ops, 0, .step1⟩

/-- The outputs of DERIVE in one event (R141, R142): KEY_BUF elements 0..4n-1, KEY_LEN, RES_SEL and RES_LEVEL. -/
def State.commitDerive (s : State) (ops : DeriveOperands) (key : Bits) : State :=
  { s with
    mem      := s.mem.set .keyBuf (Buffer.putVec s.mem.keyBuf 0 key)
    keyLen   := BitVec.ofNat 32 (Config.keyFactor * ops.n)
    resSel   := BitVec.ofNat 6 (resolveSelector ops.sRaw)
    resLevel := BitVec.ofNat 3 (resolveLevel ops.lRaw) }

/-- DERIVE issued by a CMD write (R140; spec/70_reset_and_hazards.md R280). -/
def execDerive (s : State) : Host.Outcome State Fault Refusal :=
  issue s s.deriveCheck (s.deriveOperands.map (deriveStart s.cfg))

end Sys2Proof.Machine
end

