-- ==== Sys2Proof/Machine/Encrypt.lean ====
section
/-!
DEFINITION. ENCRYPT, the Forward Transform (spec/42_forward_transform.md R160 to R168).
-/

namespace Sys2Proof.Machine

/-- One of the four steps of a round (R162 to R165); no step reads the round index (R166). -/
def encryptStep (p : Params) (pos : Position) (s : Bits) : Bits :=
  match pos with
  | .step1 => subNibbles p.sbox s
  | .step2 => fwdCascade s
  | .step3 => bwdCascade s
  | .step4 => transpose s

/-- One round (R166). -/
def encryptRound (p : Params) (s : Bits) : Bits :=
  encryptStep p .step4 (encryptStep p .step3 (encryptStep p .step2 (encryptStep p .step1 s)))

/-- Whitening (R161). -/
def encryptInitial (ops : TransformOperands) : Bits := xorVec ops.text ops.key

/-- ENC(key, block) (R167): whitening, then ROUNDS_ENC rounds. -/
def encryptBlock (p : Params) (ops : TransformOperands) : Bits :=
  (List.range Config.roundsEnc).foldl (fun s _ => encryptRound p s) (encryptInitial ops)

/-- ENCRYPT's sequencer at acceptance (spec/10_state.md R50). -/
def encryptStart (ops : TransformOperands) : Running :=
  ⟨.encrypt ops, encryptInitial ops, 0, .step1⟩

/-- The output of ENCRYPT: DATA_BUF elements 0..L-1 (R168). -/
def State.commitEncrypt (s : State) (cipher : Bits) : State :=
  s.setBuffer .dataBuf (Buffer.putVec s.mem.dataBuf 0 cipher)

/-- ENCRYPT issued by a CMD write (R167; spec/70_reset_and_hazards.md R280). -/
def execEncrypt (s : State) : Host.Outcome State Fault Refusal :=
  issue s s.transformCheck (s.transformOperands.map encryptStart)

end Sys2Proof.Machine
end

