-- ==== Sys2Proof/Machine/Engine.lean ====
section
/-!
DEFINITION. The engine's turns: one step of the running command's rounds, or its completion in one event
(spec/10_state.md R50, spec/70_reset_and_hazards.md R282). The granularity is not observable (R51, log 8).
-/

namespace Sys2Proof.Machine

/-- CUR (spec/10_state.md R50). -/
def Job.cur : Job → Instr
  | .derive _  => .derive
  | .encrypt _ => .encrypt
  | .decrypt _ => .decrypt

/-- The rounds of a command (R139, R142, R166, R181). -/
def Job.rounds : Job → Nat
  | .derive ops => deriveRounds ops
  | .encrypt _  => Config.roundsEnc
  | .decrypt _  => Config.roundsEnc

/-- The step at `pos` of round `r` of a command, applied to the working vector. -/
def Job.apply (p : Params) (j : Job) (r : Nat) (pos : Position) (s : Bits) : Bits :=
  match j with
  | .derive ops => deriveStep p (resolveSelector ops.sRaw) (resolveLevel ops.lRaw) r pos s
  | .encrypt _  => encryptStep p pos s
  | .decrypt _  => decryptStep p pos s

/-- The position after `pos`, or `none` at the end of the round. -/
def Position.next : Position → Option Position
  | .step1 => some .step2
  | .step2 => some .step3
  | .step3 => some .step4
  | .step4 => none

/-- One step of the running command: the working vector transformed, the position moved on. -/
def Running.advance (p : Params) (r : Running) : Running :=
  let work := r.job.apply p r.round r.pos r.work
  match r.pos.next with
  | some pos => { r with work := work, pos := pos }
  | none     => { r with work := work, round := r.round + 1, pos := .step1 }

/-- The outputs of a finished command (R141, R142, R168, R187, R189). -/
def State.commit (s : State) (r : Running) : State :=
  match r.job with
  | .derive ops  => s.commitDerive ops r.work
  | .encrypt _   => s.commitEncrypt r.work
  | .decrypt ops => s.commitDecrypt (unwhiten ops r.work)

/-- Completion (R282): all outputs written, BUSY 0, DONE 1, ERR unchanged, PHASE IDLE, in one event. -/
def State.complete (s : State) (r : Running) : State :=
  { s.commit r with status := s.status.completed, phase := .idle }

/-- One turn of the engine: nothing while IDLE, one step of a round while rounds remain, else the completion. -/
def State.engineTurn (s : State) : State :=
  match s.phase with
  | .idle      => s
  | .running r =>
    if r.round < r.job.rounds then { s with phase := .running (r.advance s.cfg) }
    else s.complete r

/-- The result of a command as a function of its operands (spec/00_scope.md R18): the key, the ciphertext or the block. -/
def Job.result (p : Params) : Job → Bits
  | .derive ops  => deriveKey p ops
  | .encrypt ops => encryptBlock p ops
  | .decrypt ops => decryptBlock p ops

/-- The engine turns from acceptance to completion, the completion included. -/
def Job.turns (j : Job) : Nat := 4 * j.rounds + 1

end Sys2Proof.Machine
end

