-- ==== Sys2Proof/Machine/HostPort.lean ====
section
/-!
DEFINITION. The host port: what one access does (spec/20_memory.md R72 to R75), what reset does
(spec/70_reset_and_hazards.md R271), and what one event of the total order of R80 does.
-/

namespace Sys2Proof.Machine

/-- A write of the word `w` to CMD (R73 step 3; spec/60_exceptions.md R243, R244): the command it encodes is issued,
an illegal word is rejected with ILLEGAL_COMMAND before any length is examined, and either is dropped while BUSY. -/
def issueWord (s : State) (w : Word) : Host.Outcome State Fault Refusal :=
  match decode w with
  | .command i      => exec i s
  | .illegalCommand => if s.busy then .next s.dropWrite else .next (s.reject .illegalCommand)

/-- A host write that R74 and R71 let through, in the order of R73 steps 2 to 5. -/
def hostWrite (s : State) (t : Target) (w : Word) : Host.Outcome State Fault Refusal :=
  if s.busy then .next s.dropWrite
  else
    match t with
    | .reg .cmd => issueWord s w
    | .reg r    => .next (s.writeReg r w)
    | .word b k => .next (s.writeWord b k w)

/-- A host read that R74 and R71 let through (R72). -/
def hostRead (s : State) (t : Target) : Host.Outcome State Fault Refusal :=
  .next (s.answer (s.readTarget t))

/-- The target of an access that R74 and R71 let through; `none` where it is a bus error (R75). -/
def accessTarget (p : Params) (a : Access) : Option Target :=
  if a.wf then (decodeOffset p a.off).filter (fun t => t.permits a.dir) else none

/-- One host access (R72, R73), or the fault BUS_ERROR (R249). -/
def hostAccess (s : State) (a : Access) : Host.Outcome State Fault Refusal :=
  match accessTarget s.cfg a with
  | none   => .fault (.busError a.off a.dir)
  | some t =>
    match a.dir with
    | .read  => hostRead s t
    | .write => hostWrite s t a.data

/-- Reset (R271): every piece of the engine's state at the value of spec/10_state.md R60. The configuration is
constant, and what is not the engine's (the events to come, the host's record, the draw counter) stays (log 16). -/
def State.applyReset (s : State) : State :=
  { State.reset with cfg := s.cfg, inbox := s.inbox, returned := s.returned, draws := s.draws }

/-- One event of the total order (spec/20_memory.md R80). -/
def applyEvent (s : State) : Event → Host.Outcome State Fault Refusal
  | .access a => hostAccess s a
  | .engine   => .next s.engineTurn
  | .reset    => .next s.applyReset

/-- The state with the events still to come replaced. -/
def State.withInbox (s : State) (es : List Event) : State := { s with inbox := es }

/-- The next event happens: the oldest of the inbox or, when none is left, a turn of the engine (log 2, 3). -/
def nextEvent (s : State) : Host.Outcome State Fault Refusal :=
  match s.inbox with
  | []      => .next s.engineTurn
  | e :: es => applyEvent (s.withInbox es) e

/-- The host access that writes `w` to CMD (spec/30_encoding.md R111, CMDW). -/
def cmdWrite (w : Word) : Access := Access.writeAt (BitVec.ofNat 14 RegName.cmd.offset) w

end Sys2Proof.Machine
end

