-- ==== Sys2Proof/Machine/Step.lean ====
section
/-!
DEFINITION. One step of the machine, and the placing of a command where the step takes it from (log 3).
-/

namespace Sys2Proof.Machine

/-- One step: the next event of the total order of spec/20_memory.md R80. -/
def step (s : State) : Host.Outcome State Fault Refusal := nextEvent s

/-- `s` with a host write of the command word `w` to CMD as the next event (spec/30_encoding.md R104, log 3). -/
def State.withFetchWord (s : State) (nbits w : Nat) : State :=
  s.withInbox (.access (cmdWrite (BitVec.ofNat 32 (w % 2 ^ nbits))) :: s.inbox)

end Sys2Proof.Machine
end

