-- ==== Sys2Proof/Machine/HostProgram.lean ====
section
/-!
DEFINITION. The assembler of spec/30_encoding.md R110 to R113: what bus accesses each statement performs, what the
EXPECT assertions say of the words read, and the end state of a host program (spec/70_reset_and_hazards.md R291).
The engine never sees a statement, only the accesses (log 17).
-/

namespace Sys2Proof.Machine

/-- A vector literal (R112): hexadecimal digits, or binary digits after `0b`, read left to right, element 0 first. -/
inductive Literal where
  | hex (digits : List (BitVec 4))
  | bin (digits : Bits)
  deriving DecidableEq, Repr

/-- A name an EXPECT may use: one bound by RD, or `<BUF>_w` bound by READV (R110, R112). -/
inductive BoundName where
  | named (name : String)
  | bufWord (b : BufferName) (w : Nat)
  deriving DecidableEq, Repr

/-- A statement (R110 to R112). It has no label and no branch (R113). -/
inductive Stmt where
  | wr (t : Target) (value : Int)
  | rd (t : Target) (bind : Option String)
  | expect (name : BoundName) (value : Int) (mask : Option Int)
  | derive
  | encrypt
  | decrypt
  | cmdw (value : Int)
  | wait
  | loadv (b : BufferName) (L : Nat) (lit : Literal)
  | readv (b : BufferName) (L : Nat)
  | expectv (b : BufferName) (L : Nat) (lit : Literal)
  deriving DecidableEq, Repr

/-- A value literal, taken modulo 2^32 (R110). -/
def literalWord (v : Int) : Word := BitVec.ofInt 32 v

/-- The elements of a literal, in order. -/
def Literal.elements : Literal → Bits
  | .hex ds => ds.flatMap (fun d => bitsK Config.nibbleBits d.toNat)
  | .bin bs => bs

/-- The words of a vector of `L` elements: ceil(L/32) of them (R112). -/
def vectorWords (L : Nat) : Nat := ceilDiv L Config.wordBits

/-- Word `w` of a literal, zero-padded on the right (R112). -/
def Literal.word (lit : Literal) (w : Nat) : Word :=
  wordOfElements ((List.range Config.wordBits).map
    (fun t => lit.elements.getD (Config.wordBits * w + t) false))

/-- The length register that goes with a buffer (R112, LEN). -/
def lengthReg : BufferName → RegName
  | .seedBuf => .seedLen
  | .keyBuf  => .keyLen
  | .dataBuf => .dataLen

/-- The host write of a target (R110, WR). R110 gives a target's meaning only for a word of the buffer; where the word
lies beyond the buffer's window, the access goes to the target's offset modulo 2^14, whatever that names: DESIGN CHOICE,
log 20, unsafe. -/
def writeTarget (t : Target) (w : Word) : Access := Access.writeAt (BitVec.ofNat 14 t.offset) w

/-- The host read of a target (R110, RD); beyond the buffer's window as for `writeTarget` (DESIGN CHOICE, log 20, unsafe). -/
def readAccess (t : Target) : Access := Access.readAt (BitVec.ofNat 14 t.offset)

/-- The accesses of a statement; `polls` is how often a WAIT reads STATUS, at least once (R110 to R112, R290). -/
def Stmt.accesses (polls : Nat) : Stmt → List Access
  | .wr t v          => [writeTarget t (literalWord v)]
  | .rd t _          => [readAccess t]
  | .expect _ _ _    => []
  | .derive          => [cmdWrite (encode .derive)]
  | .encrypt         => [cmdWrite (encode .encrypt)]
  | .decrypt         => [cmdWrite (encode .decrypt)]
  | .cmdw v          => [cmdWrite (literalWord v)]
  | .wait            => List.replicate polls (readAccess (.reg .status))
  | .loadv b L lit   =>
    (List.range (vectorWords L)).map (fun w => writeTarget (.word b w) (lit.word w))
    ++ [writeTarget (.reg (lengthReg b)) (BitVec.ofNat 32 L)]
  | .readv b L       => (List.range (vectorWords L)).map (fun w => readAccess (.word b w))
  | .expectv _ _ _   => []

/-- The words read so far under their names, the latest first. -/
abbrev Bindings := List (BoundName × Word)

/-- The word bound to a name. -/
def Bindings.find (env : Bindings) (n : BoundName) : Option Word := List.lookup n env

/-- Whether an assertion holds of the words read; a statement that asserts nothing holds (R110, R112). An unbound name
makes it false. The spec pads only LOADV's literal; that EXPECTV's counts as padded with 0 too, where it is shorter than
`L`, is the model's DESIGN CHOICE (log 17). -/
def Stmt.holds (env : Bindings) : Stmt → Bool
  | .expect n v mask =>
    match Bindings.find env n with
    | none   => false
    | some w => w &&& (mask.elim (BitVec.allOnes 32) literalWord) == literalWord v
  | .expectv b L lit =>
    (List.range L).all (fun j =>
      match Bindings.find env (.bufWord b (j / Config.wordBits)) with
      | none   => false
      | some w => (wordElements w).getD (j % Config.wordBits) false == lit.elements.getD j false)
  | _ => true

/-- The bindings after a statement whose reads returned `ws`, oldest first (R110, R112). DEDUCED, log 17: the `t` of
WAIT's expansion `RD STATUS -> t` is a name like any other, so a later EXPECT of `t` sees WAIT's last read. -/
def Stmt.bind (env : Bindings) (ws : List Word) : Stmt → Bindings
  | .rd _ (some name) => ws.reverse.map (fun w => (BoundName.named name, w)) ++ env
  | .wait             => ws.reverse.map (fun w => (BoundName.named "t", w)) ++ env
  | .readv b _        => ws.zipIdx.map (fun p => (BoundName.bufWord b p.2, p.1)) ++ env
  | _                 => env

/-- A WAIT ends with the first STATUS read whose bit 0 is 0 (R112). -/
def waitEnds : List Word → Bool
  | []      => false
  | [w]     => !w.getLsbD 0
  | w :: ws => w.getLsbD 0 && waitEnds ws

/-- How many words the reads of a statement return. -/
def Stmt.reads (polls : Nat) (st : Stmt) : Nat := ((st.accesses polls).filter (fun a => a.dir = .read)).length

/-! ### Programs

A program is a list of statements, performed straight through (R113). The list `ks` of numbers gives each WAIT its number
of STATUS reads, which the engine's latency decides (log 17). -/

/-- The accesses of a program, in order (R112, R113). -/
def programAccesses : List Stmt → List Nat → List Access
  | [], _             => []
  | .wait :: rest, ks => Stmt.accesses (ks.headD 1) .wait ++ programAccesses rest ks.tail
  | st :: rest, ks    => st.accesses 0 ++ programAccesses rest ks

/-- Whether every WAIT ends as R112 says, where the reads of the program returned `ws`, oldest first. -/
def waitsHold : List Stmt → List Nat → List Word → Bool
  | [], _, ws             => ws.isEmpty
  | .wait :: rest, ks, ws =>
    waitEnds (ws.take (ks.headD 1)) && waitsHold rest ks.tail (ws.drop (ks.headD 1))
  | st :: rest, ks, ws    => waitsHold rest ks (ws.drop (st.reads 0))

/-- Whether every assertion holds where it stands, where the reads of the program returned `ws`, oldest first. -/
def assertionsHold : List Stmt → List Nat → Bindings → List Word → Bool
  | [], _, _, _                => true
  | .wait :: rest, ks, env, ws =>
    assertionsHold rest ks.tail (Stmt.bind env (ws.take (ks.headD 1)) .wait) (ws.drop (ks.headD 1))
  | st :: rest, ks, env, ws    =>
    let env' := st.bind env (ws.take (st.reads 0))
    st.holds env' && assertionsHold rest ks env' (ws.drop (st.reads 0))

/-- Whether the words `ws` a host read, oldest first, fit the program: its WAITs and its assertions. -/
def programHolds (prog : List Stmt) (ks : List Nat) (env : Bindings) (ws : List Word) : Bool :=
  waitsHold prog ks ws && assertionsHold prog ks env ws

/-! ### The end of a program -/

/-- The host access of an event. -/
def Event.access? : Event → Option Access
  | .access a => some a
  | .engine   => none
  | .reset    => none

/-- The state after the events `es` have happened one after the other, where none of them stops the machine. -/
def State.perform (s : State) : List Event → Option State
  | []      => some s
  | e :: es =>
    match applyEvent s e with
    | .next t    => t.perform es
    | .fault _   => none
    | .refused _ => none

/-- The words that the reads since the state `s` returned, oldest first. -/
def State.readSince (t s : State) : List Word :=
  (t.returned.take (t.returned.length - s.returned.length)).reverse

/-- The events `es` are those of the program up to its end and no further: their accesses are the program's, in order,
and the last event is the last of them. A program with no access ends where it starts. -/
def endsProgram (prog : List Stmt) (ks : List Nat) (es : List Event) : Bool :=
  es.filterMap Event.access? == programAccesses prog ks && es.getLast?.all (fun e => (Event.access? e).isSome)

/-- The end state of a program performed from `s` by the events `es` (R113; spec/70_reset_and_hazards.md R291): the
state right after its last access, its WAITs having ended, and none while a command is RUNNING there. A statement that
makes no access takes no time of the engine's: DESIGN CHOICE, log 17. -/
def State.endState (s : State) (prog : List Stmt) (ks : List Nat) (es : List Event) : Option State :=
  if endsProgram prog ks es then
    (s.perform es).filter (fun t => waitsHold prog ks (t.readSince s) && !t.busy)
  else none

end Sys2Proof.Machine
end

