-- ==== Sys2Proof/Safety.lean ====
section
/-!
DEFINITION. What the claims speak of: runs of events, and the invariant that every reachable state meets
(spec/10_state.md R34, R42, R43, R50; spec/70_reset_and_hazards.md R281).
-/

namespace Sys2Proof.Machine

/-! ### Runs -/

/-- `k` steps of the machine answer the state `t`: a run with no fault and no refusal. -/
def RunsTo (k : Nat) (s t : State) : Prop := Sys2Proof.core.run k s = .next t

/-! ### The working vector a command has at each point -/

/-- The working vector of a command at acceptance. -/
def Job.initial (p : Params) : Job → Bits
  | .derive ops  => deriveInitial p ops
  | .encrypt ops => encryptInitial ops
  | .decrypt ops => decryptInitial ops

/-- The steps of round `r` that come before `pos`, applied to `s`. -/
def Job.stepsBefore (p : Params) (j : Job) (r : Nat) (pos : Position) (s : Bits) : Bits :=
  match pos with
  | .step1 => s
  | .step2 => j.apply p r .step1 s
  | .step3 => j.apply p r .step2 (j.apply p r .step1 s)
  | .step4 => j.apply p r .step3 (j.apply p r .step2 (j.apply p r .step1 s))

/-- All four steps of round `r`. -/
def Job.roundStep (p : Params) (j : Job) (s : Bits) (r : Nat) : Bits :=
  j.apply p r .step4 (j.stepsBefore p r .step4 s)

/-- The working vector after `r` whole rounds and the steps before `pos`. -/
def Job.workAt (p : Params) (j : Job) (r : Nat) (pos : Position) : Bits :=
  j.stepsBefore p r pos ((List.range r).foldl (j.roundStep p) (j.initial p))

/-- A command's operands are what the state's registers and buffers hold, and its checks pass (R281, R244). -/
def Job.current (s : State) : Job → Prop
  | .derive ops  => s.deriveCheck = none ∧ s.deriveOperands = .ok ops
  | .encrypt ops => s.transformCheck = none ∧ s.transformOperands = .ok ops
  | .decrypt ops => s.transformCheck = none ∧ s.transformOperands = .ok ops

/-! ### The invariant -/

/-- What every reachable state meets. -/
structure State.Inv (s : State) : Prop where
  /-- ERR is 1 exactly when ECODE is not 0 (R34). -/
  errIff       : s.status.err = true ↔ s.status.ecode ≠ 0#4
  /-- ECODE 4 to 15 are never produced (R240). -/
  ecodeLe      : s.status.ecode.toNat ≤ 3
  /-- A command that ended with an error has finished (R34). -/
  errDone      : s.status.err = true → s.status.done = true
  /-- BUSY = 1 together with DONE = 1 never occurs (R34). -/
  busyNotDone  : s.busy = true → s.status.done = false
  /-- RES_SEL is an index into NAMES (R42). -/
  resSelLt     : s.resSel.toNat < Config.nSel
  /-- RES_LEVEL is 0 or a resolved level (R43). -/
  resLevelLe   : s.resLevel.toNat ≤ Config.levelMod
  /-- The buffers are in canonical form. -/
  memWf        : s.mem.wf
  /-- Every listed element is one its buffer has (R40). -/
  memWithin    : s.mem.within s.cfg
  /-- The snapshot is what the registers and buffers still hold (R281). -/
  jobCurrent   : ∀ r, s.phase = .running r → r.job.current s
  /-- The working vector is the exact partial result at the sequencer's point (R50). -/
  workExact    : ∀ r, s.phase = .running r → r.work = r.job.workAt s.cfg r.round r.pos
  /-- The sequencer is within its rounds (R139, R166, R181). -/
  roundLe      : ∀ r, s.phase = .running r →
                  r.round < r.job.rounds ∨ (r.round = r.job.rounds ∧ r.pos = .step1)

/-! ### When a command is accepted -/

/-- Every element of a buffer's operand range is defined (R41, R248). -/
def Buffer.defined (b : Buffer) (L : Nat) : Prop := ∀ j, j < L → ∃ x, Buffer.bit b j = some x

/-- The vector a defined operand range holds. -/
def Buffer.elements (b : Buffer) (L : Nat) : Bits :=
  (List.range L).map (fun j => (Buffer.bit b j).getD false)

/-- DERIVE executes normally: the engine is idle, SEED_LEN is within S_MAX (R242) and the seed is defined (R248). -/
def State.derivable (s : State) : Prop :=
  s.phase = .idle ∧ uint32 s.seedLen ≤ s.cfg.sMax ∧ Buffer.defined s.mem.seedBuf (uint32 s.seedLen)

/-- ENCRYPT and DECRYPT execute normally: the engine is idle, the lengths are equal (R241) and within 4·S_MAX (R242),
and the key and the text are defined (R248). -/
def State.transformable (s : State) : Prop :=
  s.phase = .idle ∧ s.keyLen = s.dataLen ∧ uint32 s.keyLen ≤ s.cfg.lMax ∧
  Buffer.defined s.mem.keyBuf (uint32 s.keyLen) ∧ Buffer.defined s.mem.dataBuf (uint32 s.keyLen)

/-- The operands of DERIVE as R102 assembles them. -/
def State.deriveOps (s : State) : DeriveOperands :=
  ⟨uint32 s.seedLen, Buffer.elements s.mem.seedBuf (uint32 s.seedLen), sint32 s.selector, sint32 s.level⟩

/-- The operands of ENCRYPT and DECRYPT as R102 assembles them. -/
def State.transformOps (s : State) : TransformOperands :=
  ⟨uint32 s.keyLen, Buffer.elements s.mem.keyBuf (uint32 s.keyLen),
    Buffer.elements s.mem.dataBuf (uint32 s.keyLen)⟩

/-- The working vector of a command after its last round. -/
def Job.finalWork (p : Params) (j : Job) : Bits := j.workAt p j.rounds .step1

/-- The engine turns a running command still needs, its completion included. -/
def Running.turnsLeft (r : Running) : Nat :=
  4 * (r.job.rounds - r.round) + 1 -
    (match r.pos with | .step1 => 0 | .step2 => 1 | .step3 => 2 | .step4 => 3)

/-- The event is a host write. -/
def Event.isHostWrite : Event → Bool
  | .access a => a.dir = .write
  | .engine   => false
  | .reset    => false

/-! ### Reading the state -/

/-- Element `j` of a buffer, `none` where it is ⊥: the model's read of one element (R41). -/
def State.element (s : State) (b : BufferName) (j : Nat) : Option Bool := Buffer.bit (s.mem.get b) j

/-- The state with the outputs of a command written, computed from its operands in one go (spec/00_scope.md R18). -/
def State.outputs (s : State) : Job → State
  | .derive ops  => s.commitDerive ops (deriveKey s.cfg ops)
  | .encrypt ops => s.commitEncrypt (encryptBlock s.cfg ops)
  | .decrypt ops => s.commitDecrypt (decryptBlock s.cfg ops)

/-- The state after the completion of the command `j`, its operands those it captured, `later` being the events still to
come, where the host made accesses meanwhile and `wrote` says whether one was a write (R282, R284). The words that the
host read and the draw counter, the model's own, are those of `u`. -/
def State.completedWith (s : State) (j : Job) (wrote : Bool) (later : List Event) (u : State) : State :=
  { s.outputs j with
    status   := ⟨true, false, s.status.ovr || wrote, 0#4⟩
    phase    := .idle
    inbox    := later
    returned := u.returned
    draws    := u.draws }

/-- Every register, buffer element and the sequencer at the reset value of R60. PARAM1's value depends on N_SEL, COLS,
ROUNDS_ENC and ROUNDS_GEN (R7). -/
structure State.AtResetValues (t : State) : Prop where
  param0   : t.regValue .param0 = BitVec.ofNat 32 t.cfg.sMax
  param1   : t.regValue .param1 = 0x28040203#32
  status   : t.regValue .status = 0x00000000#32
  seedLen  : t.regValue .seedLen = 0x00000000#32
  selector : t.regValue .selector = 0x00000000#32
  level    : t.regValue .level = 0x00000001#32
  keyLen   : t.regValue .keyLen = 0x00000000#32
  dataLen  : t.regValue .dataLen = 0x00000000#32
  resSel   : t.regValue .resSel = 0x00000000#32
  resLevel : t.regValue .resLevel = 0x00000000#32
  buffers  : ∀ b j, t.element b j = none
  phase    : t.phase = .idle

end Sys2Proof.Machine
end

