-- ==== Sys2Proof/Certificates/Slice0/Obligations.lean ====
section
/-!
DEFINITION. The statements for the provers. Each docstring names the rule of spec/ it formalises, or what it is derived
from. An element of a buffer is read with State.element (none is ⊥). Where a statement depends on the value of a
constant of spec/00_scope.md R6, or its proof must use one, its docstring names the constant (R7).
-/

open Sys2Proof Sys2Proof.Machine

/-! ### Encoding -/

/-- R105, R107: a word is DERIVE, ENCRYPT or DECRYPT exactly when all its 32 bits are those of the row, else illegal. -/
def Obligations.CommandWordIsDecodedOnAll32Bits : Prop :=
  ∀ w : Word,
    (decode w = .command .derive ↔ w = 0x00000001#32) ∧
    (decode w = .command .encrypt ↔ w = 0x00000002#32) ∧
    (decode w = .command .decrypt ↔ w = 0x00000003#32) ∧
    (decode w = .illegalCommand ↔ w ≠ 0x00000001#32 ∧ w ≠ 0x00000002#32 ∧ w ≠ 0x00000003#32)

/-- Derived from R104 and R105: encoding and decoding agree in both directions, and RSV is 0. -/
def Obligations.EncodeAndDecodeAgree : Prop :=
  (∀ i : Instr, i.wf → decode (encode i) = .command i ∧ (encode i).extractLsb' 4 28 = 0#28 ∧
    (encode i).extractLsb' 0 4 = opcode i) ∧
  (∀ (w : Word) (i : Instr), decode w = .command i → w = encode i)

/-- Derived from R71 and R76: every register and every buffer word the engine has is decoded from its own offset, and
an offset is decoded to nothing else. Depends on KEY_FACTOR: at most 4, so that a buffer fits its window (R7). -/
def Obligations.AddressMapNamesEveryOffsetOnce : Prop :=
  ∀ p : Params,
    (∀ r : RegName, decodeOffset p (BitVec.ofNat 14 r.offset) = some (.reg r)) ∧
    (∀ (b : BufferName) (w : Nat), w < b.words p →
      (Target.word b w).offset < 2 ^ 14 ∧
      decodeOffset p (BitVec.ofNat 14 (Target.word b w).offset) = some (.word b w)) ∧
    (∀ (off : BitVec 14) (t : Target), decodeOffset p off = some t →
      off.toNat = t.offset ∧ ∀ b w, t = .word b w → w < b.words p)

/-- Derived from R8, R70 and R101: OFF is the distance from BASE inside the block, and no other address reaches it. -/
def Obligations.HostAddressesOfTheBlockAreTheOnesDecoded : Prop :=
  ∀ (p : Params) (addr : Nat),
    (p.base ≤ addr → addr < p.base + 16384 → decodeAddress p addr = some (BitVec.ofNat 14 (addr - p.base))) ∧
    (addr < p.base ∨ p.base + 16384 ≤ addr → decodeAddress p addr = none)

/-! ### The step and the issue of a command -/

/-- Derived from R73, R104 and R280: when the next event is a host write of a command's word to CMD, the step is exec
of that command with the event taken; so for the word withFetchWord places, in every state. -/
def Obligations.StepExecutesTheDecodedCommand : Prop :=
  (∀ (s : State) (es : List Event) (w : Word) (i : Instr),
    s.inbox = .access (cmdWrite w) :: es → decode w = .command i → step s = exec i { s with inbox := es }) ∧
  (∀ (s : State) (i : Instr), step (s.withFetchWord 32 (encode i).toNat) = exec i s)

/-- R106: a word outside the opcode map, RSV ≠ 0 included, written to CMD while idle is rejected with ILLEGAL_COMMAND
(STATUS 0x00000026), and nothing else changes. -/
def Obligations.IllegalCommandWordIsRejected : Prop :=
  ∀ (s : State) (es : List Event) (w : Word),
    s.phase = .idle → s.inbox = .access (cmdWrite w) :: es →
    (w.extractLsb' 4 28 ≠ 0#28 ∨ w.extractLsb' 0 4 = 0x0#4 ∨ 0x4#4 ≤ w.extractLsb' 0 4) →
    ∃ t, step s = .next t ∧ t = { s with inbox := es, status := t.status } ∧
      t.regValue .status = 0x00000026#32

/-- R242: LENGTH_RANGE exactly when a length register exceeds the capacity; a length equal to it, and 0, are legal.
Depends on KEY_FACTOR, the 4 of the capacity 4·S_MAX (R7). -/
def Obligations.LengthRangeIsRejectedExactlyBeyondCapacity : Prop :=
  ∀ s : State, s.phase = .idle →
    (exec .derive s = .next { s with status := ⟨true, true, false, 3#4⟩ } ↔ s.cfg.sMax < s.seedLen.toNat) ∧
    (∀ i : Instr, i = .encrypt ∨ i = .decrypt →
      (exec i s = .next { s with status := ⟨true, true, false, 3#4⟩ } ↔
        4 * s.cfg.sMax < s.keyLen.toNat ∨ 4 * s.cfg.sMax < s.dataLen.toNat))

/-- R241: LENGTH_MISMATCH exactly when the lengths differ and both are within range; DERIVE never raises it.
Depends on KEY_FACTOR, the 4 of the capacity 4·S_MAX (R7). -/
def Obligations.LengthMismatchIsRejectedExactlyWithinRange : Prop :=
  ∀ s : State, s.phase = .idle →
    (∀ i : Instr, i = .encrypt ∨ i = .decrypt →
      (exec i s = .next { s with status := ⟨true, true, false, 1#4⟩ } ↔
        s.keyLen ≠ s.dataLen ∧ s.keyLen.toNat ≤ 4 * s.cfg.sMax ∧ s.dataLen.toNat ≤ 4 * s.cfg.sMax)) ∧
    (∀ t, exec .derive s = .next t → t.status.ecode ≠ 1#4)

/-- R244: of several errors exactly one is reported, ILLEGAL_COMMAND before LENGTH_RANGE before LENGTH_MISMATCH.
Depends on KEY_FACTOR, the 4 of the capacity 4·S_MAX (R7). -/
def Obligations.ErrorsAreReportedInPriorityOrder : Prop :=
  ∀ (s : State) (w : Word), s.phase = .idle →
    (decode w = .illegalCommand →
      ∃ t, issueWord s w = .next t ∧ t = { s with status := ⟨true, true, false, 2#4⟩ }) ∧
    (decode w = .command .derive → s.cfg.sMax < s.seedLen.toNat →
      ∃ t, issueWord s w = .next t ∧ t = { s with status := ⟨true, true, false, 3#4⟩ }) ∧
    (decode w = .command .encrypt ∨ decode w = .command .decrypt →
      (4 * s.cfg.sMax < s.keyLen.toNat ∨ 4 * s.cfg.sMax < s.dataLen.toNat →
        ∃ t, issueWord s w = .next t ∧ t = { s with status := ⟨true, true, false, 3#4⟩ }) ∧
      (s.keyLen.toNat ≤ 4 * s.cfg.sMax → s.dataLen.toNat ≤ 4 * s.cfg.sMax → s.keyLen ≠ s.dataLen →
        ∃ t, issueWord s w = .next t ∧ t = { s with status := ⟨true, true, false, 1#4⟩ }))

/-- Derived from R243, R245 and R280: a CMD write while idle that answers either starts the command with a clear STATUS
(0x00000001) and writes no output, or records one of the three codes and changes nothing else. -/
def Obligations.CommandIssueIsAllOrNothing : Prop :=
  ∀ (s t : State) (w : Word), s.phase = .idle → issueWord s w = .next t →
    (t = { s with status := ⟨false, false, false, 0#4⟩, phase := t.phase } ∧
      t.regValue .status = 0x00000001#32) ∨
    (∃ e : ErrorCode, t = { s with status := ⟨true, true, false, e.code⟩ })

/-- Derived from R44, R45 and R284: the frame of all three commands at their issue. Every register but STATUS, every
buffer element and everything else but the sequencer is unchanged. -/
def Obligations.IssuingACommandWritesOnlyStatusAndSequencer : Prop :=
  ∀ (i : Instr) (s t : State), exec i s = .next t →
    t = { s with status := t.status, phase := t.phase } ∧
    (∀ b j, t.element b j = s.element b j) ∧
    (∀ r : RegName, r ≠ .status → t.regValue r = s.regValue r)

/-- Derived from R248 and R41: a command that passes its checks while its operand range holds a ⊥ element ends in
UNDEFINED_OPERAND, naming a ⊥ element of a range; a command ends in no other fault. That the fault comes at the CMD
write, in place of the acceptance, is the model's reading (log 5); that the lowest ⊥ element is named, the key before
the text, is too, and is not stated here. Depends on KEY_FACTOR, the 4 of the capacity 4·S_MAX (R7). -/
def Obligations.UndefinedOperandEndsTheCommand : Prop :=
  ∀ s : State, s.phase = .idle →
    (s.seedLen.toNat ≤ s.cfg.sMax → ¬ Buffer.defined s.mem.seedBuf s.seedLen.toNat →
      ∃ j, exec .derive s = .fault (.undefinedOperand .seedBuf j) ∧
        j < s.seedLen.toNat ∧ s.element .seedBuf j = none) ∧
    (∀ i : Instr, i = .encrypt ∨ i = .decrypt → s.keyLen = s.dataLen → s.keyLen.toNat ≤ 4 * s.cfg.sMax →
      ¬ (Buffer.defined s.mem.keyBuf s.keyLen.toNat ∧ Buffer.defined s.mem.dataBuf s.keyLen.toNat) →
      ∃ b j, exec i s = .fault (.undefinedOperand b j) ∧ (b = .keyBuf ∨ b = .dataBuf) ∧
        j < s.keyLen.toNat ∧ s.element b j = none) ∧
    (∀ (i : Instr) (f : Fault), exec i s = .fault f → ∃ b j, f = .undefinedOperand b j ∧ s.element b j = none)

/-! ### The commands complete -/

/-- Derived from R280, R281 and R102: DERIVE under its conditions is accepted, with the operands it captures. That the
sequencer then holds the combined and expanded vector already, at round 0 and its first step, is the model's choice
(log 8). -/
def Obligations.DeriveIsAcceptedWithItsOperands : Prop :=
  ∀ s : State, s.derivable →
    exec .derive s = .next { s with
      status := ⟨false, false, false, 0#4⟩
      phase  := .running ⟨.derive s.deriveOps, deriveInitial s.cfg s.deriveOps, 0, .step1⟩ }

/-- Derived from R280, R281, R102, R161 and R180: ENCRYPT and DECRYPT under their conditions are accepted with the
operands they capture; ENCRYPT's working vector starts whitened, DECRYPT's as the ciphertext. That this vector is formed
at acceptance, and that the round counter starts at 0 for DECRYPT too, is the model's choice (log 8). -/
def Obligations.TransformsAreAcceptedWithTheirOperands : Prop :=
  ∀ s : State, s.transformable →
    exec .encrypt s = .next { s with
      status := ⟨false, false, false, 0#4⟩
      phase  := .running ⟨.encrypt s.transformOps,
        xorVec s.transformOps.text s.transformOps.key, 0, .step1⟩ } ∧
    exec .decrypt s = .next { s with
      status := ⟨false, false, false, 0#4⟩
      phase  := .running ⟨.decrypt s.transformOps, s.transformOps.text, 0, .step1⟩ }

/-- Derived from R141 and R143 (and R142 for n = 0): DERIVE answers a next state, nothing but the sequencer changes until completion,
and at completion KEY_BUF elements 0..4n-1 take the key, KEY_LEN 4n, RES_SEL and RES_LEVEL the resolved values, STATUS
is 0x00000002, and everything else is unchanged. How many engine turns that takes is the model's choice (log 8).
Depends on KEY_FACTOR, the 4 of the key's length, and on N_SEL and LEVEL_MOD, which fit the result registers (R7). -/
def Obligations.DeriveWritesKeyAndResultsAtCompletion : Prop :=
  ∀ s : State, s.derivable → s.inbox = [] →
    ∃ t u, exec .derive s = .next t ∧ RunsTo (Job.turns (.derive s.deriveOps)) t u ∧
      (∀ k, k < Job.turns (.derive s.deriveOps) →
        ∃ m, RunsTo k t m ∧ m.busy = true ∧ m = { t with phase := m.phase }) ∧
      (∀ j, j < 4 * s.seedLen.toNat → u.element .keyBuf j = (deriveKey s.cfg s.deriveOps)[j]?) ∧
      (∀ j, 4 * s.seedLen.toNat ≤ j → u.element .keyBuf j = s.element .keyBuf j) ∧
      (deriveKey s.cfg s.deriveOps).length = 4 * s.seedLen.toNat ∧
      u.keyLen.toNat = 4 * s.seedLen.toNat ∧
      u.resSel.toNat = resolveSelector s.selector.toInt ∧
      u.resLevel.toNat = resolveLevel s.level.toInt ∧
      u = { s with
        status   := ⟨true, false, false, 0#4⟩
        mem      := { s.mem with keyBuf := u.mem.keyBuf }
        keyLen   := u.keyLen
        resSel   := u.resSel
        resLevel := u.resLevel } ∧
      u.regValue .status = 0x00000002#32

/-- Derived from R142: DERIVE of the empty seed reads no buffer, writes KEY_LEN 0, RES_SEL and RES_LEVEL and no KEY_BUF
element, and is a success. That it completes in the one engine turn Job.turns gives is the model's choice (log 8). -/
def Obligations.EmptySeedDerivesTheEmptyKey : Prop :=
  ∀ s : State, s.phase = .idle → s.seedLen = 0#32 → s.inbox = [] →
    ∃ t u, exec .derive s = .next t ∧ RunsTo (Job.turns (.derive s.deriveOps)) t u ∧
      deriveKey s.cfg s.deriveOps = [] ∧
      u = { s with
        status   := ⟨true, false, false, 0#4⟩
        keyLen   := 0#32
        resSel   := BitVec.ofNat 6 (resolveSelector s.selector.toInt)
        resLevel := BitVec.ofNat 3 (resolveLevel s.level.toInt) }

/-- Derived from R168: ENCRYPT answers a next state, nothing but the sequencer changes until completion, and at completion DATA_BUF
elements 0..L-1 take the ciphertext of the block's length, STATUS is 0x00000002 and everything else is unchanged. How
many engine turns that takes is the model's choice (log 8). Depends on COLS not being 0 (R7). -/
def Obligations.EncryptWritesCiphertextAtCompletion : Prop :=
  ∀ s : State, s.transformable → s.inbox = [] →
    ∃ t u, exec .encrypt s = .next t ∧ RunsTo (Job.turns (.encrypt s.transformOps)) t u ∧
      (∀ k, k < Job.turns (.encrypt s.transformOps) →
        ∃ m, RunsTo k t m ∧ m.busy = true ∧ m = { t with phase := m.phase }) ∧
      (encryptBlock s.cfg s.transformOps).length = s.dataLen.toNat ∧
      (∀ j, j < s.dataLen.toNat → u.element .dataBuf j = (encryptBlock s.cfg s.transformOps)[j]?) ∧
      (∀ j, s.dataLen.toNat ≤ j → u.element .dataBuf j = s.element .dataBuf j) ∧
      u = { s with status := ⟨true, false, false, 0#4⟩, mem := { s.mem with dataBuf := u.mem.dataBuf } } ∧
      u.regValue .status = 0x00000002#32

/-- Derived from R189: DECRYPT answers a next state, nothing but the sequencer changes until completion, and at completion DATA_BUF
elements 0..L-1 take the block, STATUS is 0x00000002 and everything else is unchanged. How many engine turns that takes
is the model's choice (log 8). Depends on COLS not being 0 (R7). -/
def Obligations.DecryptWritesBlockAtCompletion : Prop :=
  ∀ s : State, s.transformable → s.inbox = [] →
    ∃ t u, exec .decrypt s = .next t ∧ RunsTo (Job.turns (.decrypt s.transformOps)) t u ∧
      (∀ k, k < Job.turns (.decrypt s.transformOps) →
        ∃ m, RunsTo k t m ∧ m.busy = true ∧ m = { t with phase := m.phase }) ∧
      (decryptBlock s.cfg s.transformOps).length = s.dataLen.toNat ∧
      (∀ j, j < s.dataLen.toNat → u.element .dataBuf j = (decryptBlock s.cfg s.transformOps)[j]?) ∧
      (∀ j, s.dataLen.toNat ≤ j → u.element .dataBuf j = s.element .dataBuf j) ∧
      u = { s with status := ⟨true, false, false, 0#4⟩, mem := { s.mem with dataBuf := u.mem.dataBuf } } ∧
      u.regValue .status = 0x00000002#32

/-- Derived from R170 and R190: ENCRYPT and DECRYPT with both lengths 0 succeed (ERR 0, DONE 1) and change nothing but
STATUS. That they complete in the engine turns Job.turns gives is the model's choice (log 8). Depends on COLS not being
0 (R7). -/
def Obligations.EmptyTransformsAreNoOps : Prop :=
  ∀ (i : Instr) (s : State), i = .encrypt ∨ i = .decrypt →
    s.phase = .idle → s.keyLen = 0#32 → s.dataLen = 0#32 → s.inbox = [] →
    ∃ t u, exec i s = .next t ∧ RunsTo (Job.turns (.encrypt s.transformOps)) t u ∧
      u = { s with status := ⟨true, false, false, 0#4⟩ }

/-- Derived from R188, R280 and R282: the host writes ENCRYPT and then DECRYPT to CMD, the engine completing each;
every buffer element and every register but STATUS is again what it was. The engine turns are the model's (log 8).
Depends on SBOX_ENTRIES being the number of nibbles, 2^NIBBLE_BITS, and on COLS not being 0 (R7). -/
def Obligations.EncryptThenDecryptRestoresTheBuffers : Prop :=
  ∀ s : State, s.transformable →
    s.inbox = .access (cmdWrite (encode .encrypt)) :: List.replicate (Job.turns (.encrypt s.transformOps)) .engine ++
      .access (cmdWrite (encode .decrypt)) :: List.replicate (Job.turns (.decrypt s.transformOps)) .engine →
    ∃ u, RunsTo s.inbox.length s u ∧ (∀ b j, u.element b j = s.element b j) ∧
      u = { s with status := ⟨true, false, false, 0#4⟩, mem := u.mem, inbox := [] }

/-! ### The host port -/

/-- R284: a mapped, writable host write while BUSY is dropped and sets OVR, CMD included; OVR is cleared by a CMD write
while BUSY = 0 (or by reset) alone, and by every such write; an access that is a bus error reaches no next state, so it
sets no OVR. -/
def Obligations.WriteWhileBusyIsDroppedAndSetsOvr : Prop :=
  (∀ (s : State) (a : Access) (t : Target), s.busy = true → a.dir = .write → accessTarget s.cfg a = some t →
    hostAccess s a = .next { s with status := { s.status with ovr := true } }) ∧
  (∀ (s t : State) (e : Event), applyEvent s e = .next t → s.status.ovr = true → t.status.ovr = false →
    e = .reset ∨ (s.busy = false ∧ ∃ a, e = .access a ∧ a.dir = .write ∧ a.off = 0x008#14)) ∧
  (∀ (s t : State) (w : Word), s.busy = false → issueWord s w = .next t → t.status.ovr = false) ∧
  (∀ (s : State) (a : Access), accessTarget s.cfg a = none → ∃ f, hostAccess s a = .fault f)

/-- Derived from R71, R74, R75, R78 and R249: BUS_ERROR(offset, direction) exactly for an access that is not a 32-bit
access with all lanes at a multiple of 4, or falls in a reserved range, or writes a read-only register, whatever the
state. Depends on KEY_FACTOR and the word width (R7). -/
def Obligations.BusErrorExactlyOnRejectedAccess : Prop :=
  ∀ (s : State) (a : Access),
    hostAccess s a = .fault (.busError a.off a.dir) ↔
      a.size ≠ 4 ∨ a.lanes ≠ 0xF#4 ∨ a.off.toNat % 4 ≠ 0 ∨
      (0x002C ≤ a.off.toNat ∧ a.off.toNat ≤ 0x0FFF) ∨
      (0x1000 + 4 * ((s.cfg.sMax + 31) / 32) ≤ a.off.toNat ∧ a.off.toNat ≤ 0x1FFF) ∨
      (0x2000 + 4 * ((4 * s.cfg.sMax + 31) / 32) ≤ a.off.toNat ∧ a.off.toNat ≤ 0x2FFF) ∨
      0x3000 + 4 * ((4 * s.cfg.sMax + 31) / 32) ≤ a.off.toNat ∨
      (a.dir = .write ∧ (a.off = 0x000#14 ∨ a.off = 0x004#14 ∨ a.off = 0x00C#14 ∨ a.off = 0x024#14 ∨ a.off = 0x028#14))

/-- Derived from R72: a host read that R74 or R71 rejects ends with a bus error; what every other one returns, and that it changes no
state of the engine (the host's record and the draw counter, and the draw as a function of it, are the model's
own, log 3, 4). PARAM1's value depends on the constants it reports, N_SEL, COLS, ROUNDS_ENC and ROUNDS_GEN (R7). -/
def Obligations.HostReadReturnsAndChangesNothing : Prop :=
  ∀ (s : State) (a : Access), a.dir = .read →
    (accessTarget s.cfg a = none → hostAccess s a = .fault (.busError a.off .read)) ∧
    (∀ t : Target, accessTarget s.cfg a = some t →
    ∃ v : Word, hostAccess s a = .next { s with returned := v :: s.returned, draws := s.draws + 1 } ∧
      (t = .reg .param0 → v.toNat = s.cfg.sMax) ∧
      (t = .reg .param1 → v = 0x28040203#32) ∧
      (t = .reg .cmd → v = 0x00000000#32) ∧
      (t = .reg .status → v.getLsbD 0 = s.busy ∧ v.getLsbD 1 = s.status.done ∧ v.getLsbD 2 = s.status.err ∧
        v.getLsbD 3 = s.status.ovr ∧ v.extractLsb' 4 4 = s.status.ecode ∧ v.extractLsb' 8 24 = 0#24) ∧
      (s.busy = true → t ≠ .reg .param0 → t ≠ .reg .param1 → t ≠ .reg .cmd → t ≠ .reg .status →
        v = Config.draw s.draws) ∧
      (s.busy = false →
        (t = .reg .seedLen → v = s.seedLen) ∧ (t = .reg .selector → v = s.selector) ∧
        (t = .reg .level → v = s.level) ∧ (t = .reg .keyLen → v = s.keyLen) ∧
        (t = .reg .dataLen → v = s.dataLen) ∧ (t = .reg .resSel → v.toNat = s.resSel.toNat) ∧
        (t = .reg .resLevel → v.toNat = s.resLevel.toNat) ∧
        (∀ b k, t = .word b k → ∀ i, i < 32 →
          v.getLsbD (31 - i) = (s.element b (32 * k + i)).getD ((Config.draw s.draws).getLsbD (31 - i)))))

/-- Derived from R73 step 5 and R76: a buffer word written while idle. Element 32k+i takes bit 31-i and becomes defined;
every other element of every buffer and everything else is unchanged. -/
def Obligations.HostWriteStoresTheBufferWord : Prop :=
  ∀ (s : State) (a : Access) (b : BufferName) (k : Nat),
    s.phase = .idle → a.dir = .write → accessTarget s.cfg a = some (.word b k) →
    ∃ u, hostAccess s a = .next u ∧
      (∀ i, i < 32 → u.element b (32 * k + i) = some (a.data.getLsbD (31 - i))) ∧
      (∀ j, j < 32 * k ∨ 32 * k + 32 ≤ j → u.element b j = s.element b j) ∧
      (∀ c, c ≠ b → ∀ j, u.element c j = s.element c j) ∧
      u = { s with mem := u.mem }

/-- Derived from R73 step 4 and R35 to R39: an operand register written while idle takes all 32 bits, no value clamped,
and nothing else changes. -/
def Obligations.HostWriteStoresTheOperandRegister : Prop :=
  ∀ (s : State) (a : Access), s.phase = .idle → a.dir = .write →
    (accessTarget s.cfg a = some (.reg .seedLen) → hostAccess s a = .next { s with seedLen := a.data }) ∧
    (accessTarget s.cfg a = some (.reg .selector) → hostAccess s a = .next { s with selector := a.data }) ∧
    (accessTarget s.cfg a = some (.reg .level) → hostAccess s a = .next { s with level := a.data }) ∧
    (accessTarget s.cfg a = some (.reg .keyLen) → hostAccess s a = .next { s with keyLen := a.data }) ∧
    (accessTarget s.cfg a = some (.reg .dataLen) → hostAccess s a = .next { s with dataLen := a.data })

/-- Derived from R60 and R271: the reset values, in State.reset and after the reset event in every state, a running command abandoned;
the configuration is unchanged. That the events still to come, the host's record and the draw counter stay is the
model's choice (log 16). PARAM1's value depends on the constants it reports, N_SEL, COLS, ROUNDS_ENC
and ROUNDS_GEN (R7). -/
def Obligations.ResetLeavesEveryRegisterAtItsResetValue : Prop :=
  State.reset.AtResetValues ∧
  (∀ (s : State) (es : List Event), s.inbox = .reset :: es →
    ∃ t, step s = .next t ∧ t.AtResetValues ∧ t.cfg = s.cfg ∧ t.inbox = es)

/-- Derived from R281, R282, R284 and R290: whatever accesses the host makes while a command runs (none of them a bus
error), in whatever order with the engine's turns, the command completes with the outputs of its operands at acceptance,
and the only trace of the accesses is OVR, set exactly if one of them was a write. `evs` is what happens before the
completion; the turns still missing follow when the inbox is empty, or the completion is the next event and anything may
come later. That the turns are the inbox's, and their number, is the model's (log 2, 8). -/
def Obligations.HostAccessesCannotDisturbARunningCommand : Prop :=
  ∀ (s : State) (r : Running) (evs : List Event),
    s.Inv → s.phase = .running r → evs.count .engine < r.turnsLeft →
    (∀ e ∈ evs, e = .engine ∨ ∃ a, e = .access a ∧ accessTarget s.cfg a ≠ none) →
    (s.inbox = evs →
      ∃ u, RunsTo (evs.length + (r.turnsLeft - evs.count .engine)) s u ∧
        u = s.completedWith r.job (evs.any Event.isHostWrite) [] u) ∧
    (∀ later, s.inbox = evs ++ .engine :: later → evs.count .engine + 1 = r.turnsLeft →
      ∃ u, RunsTo (evs.length + 1) s u ∧ u = s.completedWith r.job (evs.any Event.isHostWrite) later u)

/-- Derived from R251, R282 and R284: a host write of any writable target and the completion of a command in either
order. Before the completion the write is dropped and sets OVR; after it the write is performed on the completed state:
stored, or issued where it is a write of CMD. In both orders the command's outputs are written in the one event. -/
def Obligations.WriteAndCompletionInEitherOrder : Prop :=
  ∀ (s c : State) (r : Running) (a : Access) (t : Target),
    s.phase = .running r → ¬ r.round < r.job.rounds → a.dir = .write → accessTarget s.cfg a = some t →
    c = { s.commit r with
      status := { s.status with done := true }
      phase  := .idle
      inbox  := [] } →
    (s.inbox = [.access a, .engine] →
      RunsTo 2 s { c with status := { s.status with done := true, ovr := true } }) ∧
    (s.inbox = [.engine, .access a] →
      (∀ q, t = .reg q → q ≠ .cmd → RunsTo 2 s (c.writeReg q a.data) ∧ (c.writeReg q a.data).regValue q = a.data) ∧
      (∀ b k, t = .word b k → RunsTo 2 s (c.writeWord b k a.data)) ∧
      (t = .reg .cmd → ∀ u, RunsTo 2 s u ↔ issueWord c a.data = .next u))

/-- Derived from R112 and R76: the accesses of LOADV, performed while idle, put the literal, zero-padded, into the
buffer from element 0 and its length into the length register, and change nothing beyond those words. Depends on
KEY_FACTOR: at most 4, so that a buffer fits its window (R7). -/
def Obligations.LoadvPlacesTheLiteral : Prop :=
  ∀ (s : State) (b : BufferName) (L : Nat) (lit : Literal),
    s.phase = .idle → L ≤ b.bits s.cfg →
    s.inbox = (Stmt.accesses 0 (.loadv b L lit)).map .access →
    ∃ u, RunsTo s.inbox.length s u ∧ u.phase = .idle ∧
      (∀ j, j < L → u.element b j = some (lit.elements.getD j false)) ∧
      (∀ j, 32 * vectorWords L ≤ j → u.element b j = s.element b j) ∧
      (∀ c, c ≠ b → ∀ j, u.element c j = s.element c j) ∧
      (u.regValue (lengthReg b)).toNat = L ∧
      (∀ r, r ≠ lengthReg b → u.regValue r = s.regValue r)

/-! ### Invariants -/

/-- Derived from R34, R40, R42, R43, R50, R240 and R281: every step keeps the invariant, from every state that meets it.
Depends on KEY_FACTOR, N_SEL and LEVEL_MOD, whose values make the outputs fit their buffer and registers, and on COLS not
being 0 (R7). -/
def Obligations.EveryStepKeepsTheInvariant : Prop :=
  ∀ s t : State, s.Inv → step s = .next t → t.Inv

/-- The state after reset meets the invariant (derived from R60). Depends on N_SEL not being 0, so that RES_SEL's reset
value is an index into NAMES (R7). -/
def Obligations.ResetMeetsTheInvariant : Prop := State.reset.Inv

/-- Derived from R31, R32, R56 and R60: no event changes the configuration, so the tables and the parameter registers
read the same for ever. -/
def Obligations.NoStepChangesTheConfiguration : Prop :=
  ∀ s t : State, step s = .next t →
    t.cfg = s.cfg ∧ t.regValue .param0 = s.regValue .param0 ∧ t.regValue .param1 = s.regValue .param1

/-! ### DERIVE -/

/-- R132, R133: the resolved selector is (s_raw - 1) mod 40 and the resolved level ((l_raw - 1) mod 4) + 1 under floor
modulo, for every integer, with the corner values of the two tables; the selector indexes NAMES. Depends on N_SEL and
LEVEL_MOD (R7). -/
def Obligations.SelectorAndLevelAreNormalisedByFloorModulo : Prop :=
  (∀ z : Int, resolveSelector z < 40 ∧ ((resolveSelector z : Int) - (z - 1)) % 40 = 0 ∧
    1 ≤ resolveLevel z ∧ resolveLevel z ≤ 4 ∧ ((resolveLevel z : Int) - 1 - (z - 1)) % 4 = 0) ∧
  [0, 1, 40, 41, -1, 2147483647, -2147483648].map resolveSelector = [39, 0, 39, 0, 38, 6, 31] ∧
  [1, 0, 4, 5, -1, 2147483647, -2147483648].map resolveLevel = [1, 4, 4, 1, 3, 3, 4] ∧
  (∀ (p : Params) (z : Int), p.names[resolveSelector z]? = some (resolvedName p (resolveSelector z)))

/-- R134, R135, R136: the auxiliary bits are the name's bytes and the level, most significant first; the combination is
the seed XOR the tiled auxiliary bits; the expansion is four copies. Depends on CHAR_BITS, LEVEL_BITS and KEY_FACTOR. -/
def Obligations.AuxiliaryBitsAreCombinedAndExpanded : Prop :=
  ∀ (p : Params) (sel lvl : Nat) (seed : Bits),
    (auxBits p sel lvl).length = 8 * (resolvedName p sel).length + 3 ∧
    (∀ i, i < 8 * (resolvedName p sel).length →
      (auxBits p sel lvl)[i]? = some (((resolvedName p sel).getD (i / 8) 0#8).getLsbD (7 - i % 8))) ∧
    (∀ i, i < 3 → (auxBits p sel lvl)[8 * (resolvedName p sel).length + i]? = some (lvl.testBit (2 - i))) ∧
    (combine p sel lvl seed).length = seed.length ∧
    (∀ i, i < seed.length → (combine p sel lvl seed)[i]? =
      some (seed.getD i false ^^ (auxBits p sel lvl).getD (i % (auxBits p sel lvl).length) false)) ∧
    (expand (combine p sel lvl seed)).length = 4 * seed.length ∧
    (∀ i, i < 4 * seed.length → (expand (combine p sel lvl seed))[i]? =
      (combine p sel lvl seed)[i % seed.length]?)

/-- Derived from R137 and R138: for every resolved selector and level and every round the round constant is
sel·(r+1) + lvl in 1..121, the modulus never acting, and the rotation amount is less than the length; the values the
rules list. Depends on RC_MOD, ROT_LEVEL_MULT and ROT_ROUND_MULT, and on N_SEL, LEVEL_MOD and
ROUNDS_GEN for the ranges of its operands (R7). -/
def Obligations.RoundConstantAndRotationValues : Prop :=
  (∀ sel lvl r : Nat, sel < 40 → 1 ≤ lvl → lvl ≤ 4 → r < 3 →
    roundConstant sel lvl r = sel * (r + 1) + lvl ∧ 1 ≤ roundConstant sel lvl r ∧ roundConstant sel lvl r ≤ 121) ∧
  (∀ lvl r L : Nat, 0 < L → Machine.rotation lvl r L < L ∧ Machine.rotation lvl r L = (7 * lvl + 11 * r) % L) ∧
  [0, 1, 2].map (roundConstant 39 1) = [40, 79, 118] ∧
  [0, 1, 2].map (fun r => Machine.rotation 1 r 64) = [7, 18, 29] ∧
  [0, 1, 2].map (fun r => Machine.rotation 1 r 4) = [3, 2, 1]

/-- R144: the key and the resolved values depend only on the seed and, through their residues, on the selector and the
level, beside the tables SBOX and NAMES: two configurations with the same tables give the same key, whatever else they
differ in. Depends on N_SEL and LEVEL_MOD (R7). -/
def Obligations.DeriveDependsOnlyOnResolvedOperands : Prop :=
  ∀ (p q : Params) (a b : DeriveOperands), p.sbox = q.sbox → p.names = q.names → a.n = b.n → a.seed = b.seed →
    (a.sRaw - b.sRaw) % 40 = 0 → (a.lRaw - b.lRaw) % 4 = 0 →
    deriveKey p a = deriveKey q b ∧ resolveSelector a.sRaw = resolveSelector b.sRaw ∧
      resolveLevel a.lRaw = resolveLevel b.lRaw

/-- R145: when n is a multiple of 8 the key is four copies of its first n bits, and when n ≡ 4 (mod 8) it is two copies
of its first 2n bits. Depends on KEY_FACTOR, RC_BITS and NIBBLE_BITS (R7). -/
def Obligations.DerivedKeyIsPeriodic : Prop :=
  ∀ (p : Params) (ops : DeriveOperands), ops.seed.length = ops.n →
    (ops.n % 8 = 0 → ∀ i, i < 4 * ops.n →
      (deriveKey p ops)[i]? = (deriveKey p ops)[(i + ops.n) % (4 * ops.n)]?) ∧
    (ops.n % 8 = 4 → ∀ i, i < 4 * ops.n →
      (deriveKey p ops)[i]? = (deriveKey p ops)[(i + 2 * ops.n) % (4 * ops.n)]?)

/-! ### The shared primitives -/

/-- Derived from R14: `bitsK` puts the most significant digit first and `val` inverts it in both directions. -/
def Obligations.NumberAndBitsConvertBothWays : Prop :=
  (∀ k x : Nat, x < 2 ^ k → val (bitsK k x) = x) ∧
  (∀ b : Bits, bitsK b.length (val b) = b ∧ val b < 2 ^ b.length) ∧
  (∀ k x t : Nat, t < k → (bitsK k x)[t]? = some (x / 2 ^ (k - 1 - t) % 2 == 1))

/-- R204: each full nibble is replaced by its table image and a partial last nibble is left untouched. Depends on
NIBBLE_BITS (R7). -/
def Obligations.SubstitutionReplacesEachFullNibble : Prop :=
  ∀ (table : List Nat) (s : Bits), (∀ x ∈ table, x < 16) →
    (subNibbles table s).length = s.length ∧
    (∀ k, k < s.length / 4 → nib (subNibbles table s) k = lookup table (nib s k) ∧
      nib s k = 8 * (s.getD (4 * k) false).toNat + 4 * (s.getD (4 * k + 1) false).toNat +
        2 * (s.getD (4 * k + 2) false).toNat + (s.getD (4 * k + 3) false).toNat) ∧
    (subNibbles table s).drop (4 * (s.length / 4)) = s.drop (4 * (s.length / 4))

/-- R206: substitution with SBOX and with INV_SBOX undo each other on every vector, partial nibble included.
Depends on SBOX_ENTRIES being the number of nibbles, 2^NIBBLE_BITS (R7). -/
def Obligations.SubstitutionIsInvertible : Prop :=
  ∀ (p : Params) (s : Bits),
    subNibbles (invTable p.sbox) (subNibbles p.sbox s) = s ∧
    subNibbles p.sbox (subNibbles (invTable p.sbox) s) = s

/-- R207, R208: the elements of a rotation and of the circular feedback. -/
def Obligations.RotationAndFeedbackElements : Prop :=
  (∀ (s : Bits) (k i : Nat), k < s.length → i < s.length →
    (rotl s k)[i]? = s[(i + k) % s.length]? ∧ (rotl s k).length = s.length) ∧
  (∀ (s : Bits) (i : Nat), i < s.length → (feedback s).length = s.length ∧
    (feedback s)[i]? = some (s.getD i false ^^ s.getD ((i + s.length - 1) % s.length) false)) ∧
  (∀ x : Bool, feedback [x] = [false])

/-- R209: feedback is linear, gives the same result for a vector and its complement, keeps zero, and its elements XOR
to 0. -/
def Obligations.FeedbackIsLinearAndForgetsComplement : Prop :=
  (∀ a b : Bits, a.length = b.length → feedback (xorVec a b) = xorVec (feedback a) (feedback b)) ∧
  (∀ s : Bits, feedback (s.map not) = feedback s) ∧
  (∀ L : Nat, feedback (List.replicate L false) = List.replicate L false) ∧
  (∀ s : Bits, (feedback s).foldl Bool.xor false = false)

/-- R210, R211: the forward cascade is the prefix XOR and the backward cascade the suffix XOR. -/
def Obligations.CascadesArePrefixAndSuffixXor : Prop :=
  ∀ (s : Bits) (i : Nat), i < s.length →
    (fwdCascade s)[i]? = some ((s.take (i + 1)).foldl Bool.xor false) ∧
    (bwdCascade s)[i]? = some ((s.drop i).foldl Bool.xor false) ∧
    (fwdCascade s).length = s.length ∧ (bwdCascade s).length = s.length

/-- R214: each cascade and its inverse undo each other, on every vector. -/
def Obligations.CascadesAreInvertible : Prop :=
  ∀ s : Bits,
    invFwdCascade (fwdCascade s) = s ∧ fwdCascade (invFwdCascade s) = s ∧
    invBwdCascade (bwdCascade s) = s ∧ bwdCascade (invBwdCascade s) = s

/-- Derived from R210, R211 and R171: the two cascades of a round compose to the closed form: element i is the XOR of the
elements j with L - max(i, j) odd. R171 also says that b[L-1] = a[L-1], which its own closed form contradicts for L > 1
(element L-1 is the XOR of all elements); the model follows R210, R211 and the closed form and sets that sentence aside
(DEDUCED, log 21). -/
def Obligations.CascadePairHasTheClosedForm : Prop :=
  ∀ (a : Bits) (i : Nat), i < a.length →
    (bwdCascade (fwdCascade a))[i]? =
      some (((List.range a.length).filter (fun j => (a.length - max i j) % 2 = 1)).foldl
        (fun x j => x ^^ a.getD j false) false)

/-- R215: perm_L is a permutation of 0..L-1; column c starts after the columns before it and holds its cells top to
bottom; for L ≤ 4 it is the identity. Depends on COLS (R7). -/
def Obligations.TranspositionOrderIsColumnByColumn : Prop :=
  ∀ L : Nat,
    (perm L).Perm (List.range L) ∧
    (∀ c r, c < 4 → 4 * r + c < L →
      (perm L)[((List.range c).map (fun d => (L - d + 3) / 4)).sum + r]? = some (4 * r + c)) ∧
    (L ≤ 4 → perm L = List.range L)

/-- R216, R217, R218: transpose gathers, invTranspose scatters, and they undo each other on every vector. Depends on
COLS not being 0 (R7). -/
def Obligations.TranspositionIsInvertible : Prop :=
  ∀ s : Bits,
    (∀ k i : Nat, (perm s.length)[k]? = some i → (transpose s)[k]? = s[i]? ∧ (invTranspose s)[i]? = s[k]?) ∧
    (transpose s).length = s.length ∧ (invTranspose s).length = s.length ∧
    invTranspose (transpose s) = s ∧ transpose (invTranspose s) = s

/-! ### ENCRYPT and DECRYPT -/

/-- R188: decryption undoes encryption and encryption undoes decryption, for every key and text of equal length.
Depends on SBOX_ENTRIES being 2^NIBBLE_BITS and on COLS not being 0 (R7). -/
def Obligations.EncryptionAndDecryptionRoundTrip : Prop :=
  ∀ (p : Params) (k m : Bits), k.length = m.length →
    decryptBlock p ⟨m.length, k, encryptBlock p ⟨m.length, k, m⟩⟩ = m ∧
    encryptBlock p ⟨m.length, k, decryptBlock p ⟨m.length, k, m⟩⟩ = m

/-- R169: for a fixed key of length L, ENCRYPT is a bijection of the vectors of length L, with inverse DECRYPT. Depends on
SBOX_ENTRIES being 2^NIBBLE_BITS and on COLS not being 0 (R7). -/
def Obligations.EncryptionIsABijection : Prop :=
  ∀ (p : Params) (k : Bits),
    (∀ m : Bits, m.length = k.length → (encryptBlock p ⟨k.length, k, m⟩).length = k.length) ∧
    (∀ m m' : Bits, m.length = k.length → m'.length = k.length →
      encryptBlock p ⟨k.length, k, m⟩ = encryptBlock p ⟨k.length, k, m'⟩ → m = m') ∧
    (∀ c : Bits, c.length = k.length →
      ∃ m : Bits, m.length = k.length ∧ encryptBlock p ⟨k.length, k, m⟩ = c ∧ decryptBlock p ⟨k.length, k, c⟩ = m)

/-! ### The end of a host program -/

/-- Derived from R113 and R291: a program's end state is the state its events run to, up to its last access, its WAITs
having ended and no command RUNNING; the events that come later are not looked at. That the last access is the end
even where statements without an access follow it is the model's choice (log 17). -/
def Obligations.EndStateIsTheStateAfterTheLastStatement : Prop :=
  ∀ (s t : State) (prog : List Stmt) (ks : List Nat) (es later : List Event), t.inbox = s.inbox →
    (s.endState prog ks es = some t ↔
      es.filterMap Event.access? = programAccesses prog ks ∧
      (∀ e, es.getLast? = some e → ∃ a, e = .access a) ∧
      RunsTo es.length (s.withInbox (es ++ later)) (t.withInbox later) ∧
      waitsHold prog ks (t.readSince s) = true ∧ t.phase = .idle)

/-- Derived from R291: a program that ends with a command just accepted has no end state, however many turns the engine
would take after it: DERIVE, ENCRYPT or DECRYPT alone, from a state that accepts it. -/
def Obligations.NoEndStateWhileACommandRuns : Prop :=
  ∀ (s : State) (ks : List Nat) (es : List Event),
    (s.derivable → s.endState [.derive] ks es = none) ∧
    (s.transformable → s.endState [.encrypt] ks es = none ∧ s.endState [.decrypt] ks es = none)
end

