-- ==== Sys2Proof/Laws/Buffer.lean ====
section
/-!
SUPPORT. What the buffer operations do, said once: the element read after a write, the canonical form kept, the vector
read from a defined range (spec/10_state.md R41, R44; spec/20_memory.md R76).
-/

namespace Sys2Proof.Machine

/-! ### Numbers as bits -/

@[simp] theorem length_bitsK (k x : Nat) : (bitsK k x).length = k := by simp [bitsK]

theorem getElem_bitsK (k x i : Nat) (h : i < (bitsK k x).length) :
    (bitsK k x)[i] = (x / 2 ^ (k - 1 - i) % 2 == 1) := by simp [bitsK]

theorem getElem_bitsK_testBit (k x i : Nat) (h : i < (bitsK k x).length) :
    (bitsK k x)[i] = x.testBit (k - 1 - i) := by
  rw [getElem_bitsK, Nat.testBit_eq_decide_div_mod_eq]
  rfl

@[simp] theorem length_wordElements (w : Word) : (wordElements w).length = 32 := length_bitsK _ _

/-! ### Reading after writing -/

theorem lookup_filter (b : Buffer) (p : Nat → Bool) (j : Nat) :
    List.lookup j (b.filter (fun c => p c.1)) = if p j then List.lookup j b else none := by
  induction b with
  | nil => simp
  | cons c b ih =>
    obtain ⟨k, x⟩ := c
    by_cases hk : p k <;> by_cases hj : j = k
    · subst hj; simp [hk]
    · simp [hk, List.lookup_cons, beq_false_of_ne hj, ih]
    · subst hj; simp [hk, ih]
    · simp [hk, List.lookup_cons, beq_false_of_ne hj, ih]

theorem lookup_cellsFrom (v : Bits) (start j : Nat) :
    List.lookup j (cellsFrom start v) = if start ≤ j then v[j - start]? else none := by
  induction v generalizing start with
  | nil => simp [cellsFrom]
  | cons x v ih =>
    by_cases hj : j = start
    · subst hj; simp [cellsFrom]
    · rw [cellsFrom, List.lookup_cons, beq_false_of_ne hj, ih]
      by_cases h : start ≤ j
      · have h' : start + 1 ≤ j := by omega
        have e : j - start = (j - (start + 1)) + 1 := by omega
        simp [h, h', e]
      · have h' : ¬ start + 1 ≤ j := by omega
        simp [h, h']

/-- The element read after a vector was written: the vector's where it lies, the old one elsewhere. -/
theorem bit_putVec (b : Buffer) (start : Nat) (v : Bits) (j : Nat) :
    Buffer.bit (Buffer.putVec b start v) j =
      if start ≤ j ∧ j < start + v.length then v[j - start]? else Buffer.bit b j := by
  unfold Buffer.bit Buffer.putVec
  rw [List.lookup_append, List.lookup_append,
    lookup_filter b (fun k => decide (k < start)), lookup_cellsFrom,
    lookup_filter b (fun k => decide (start + v.length ≤ k))]
  by_cases h1 : j < start
  · have : ¬ start ≤ j := by omega
    have : ¬ start + v.length ≤ j := by omega
    simp [*]
  · by_cases h2 : j < start + v.length
    · have h3 : start ≤ j := by omega
      have h4 : ¬ start + v.length ≤ j := by omega
      have h5 : j - start < v.length := by omega
      simp [h1, h2, h3, h4, h5]
    · have h3 : start ≤ j := by omega
      have h4 : start + v.length ≤ j := by omega
      have h5 : v.length ≤ j - start := by omega
      simp [h1, h2, h3, h4, h5]

/-! ### The canonical form -/

theorem mem_cellsFrom {c : Nat × Bool} {start : Nat} {v : Bits} (h : c ∈ cellsFrom start v) :
    start ≤ c.1 ∧ c.1 < start + v.length := by
  induction v generalizing start with
  | nil => simp [cellsFrom] at h
  | cons x v ih =>
    rcases List.mem_cons.mp h with rfl | h
    · simp
    · have := ih h
      simp only [List.length_cons]
      omega

theorem cellsFrom_wf (start : Nat) (v : Bits) : Buffer.wf (cellsFrom start v) := by
  induction v generalizing start with
  | nil => exact List.Pairwise.nil
  | cons x v ih =>
    refine List.Pairwise.cons (fun c hc => ?_) (ih _)
    exact (mem_cellsFrom hc).1

/-- Writing a vector keeps the canonical form. -/
theorem putVec_wf {b : Buffer} (h : Buffer.wf b) (start : Nat) (v : Bits) :
    Buffer.wf (Buffer.putVec b start v) := by
  unfold Buffer.putVec
  refine List.pairwise_append.mpr ⟨List.pairwise_append.mpr
    ⟨h.filter _, cellsFrom_wf start v, ?_⟩, h.filter _, ?_⟩
  · intro c hc d hd
    have := (mem_cellsFrom hd).1
    have : c.1 < start := by simpa using (List.mem_filter.mp hc).2
    omega
  · intro c hc d hd
    have hd' : start + v.length ≤ d.1 := by simpa using (List.mem_filter.mp hd).2
    rcases List.mem_append.mp hc with hc | hc
    · have : c.1 < start := by simpa using (List.mem_filter.mp hc).2
      omega
    · have := (mem_cellsFrom hc).2
      omega

/-- Writing a vector that fits lists no element the buffer does not have. -/
theorem putVec_within {b : Buffer} {size start : Nat} {v : Bits} (h : Buffer.within b size)
    (hv : start + v.length ≤ size) : Buffer.within (Buffer.putVec b start v) size := by
  intro c hc
  unfold Buffer.putVec at hc
  rcases List.mem_append.mp hc with hc | hc
  · rcases List.mem_append.mp hc with hc | hc
    · exact h c (List.mem_filter.mp hc).1
    · have := (mem_cellsFrom hc).2
      omega
  · exact h c (List.mem_filter.mp hc).1

/-- Replacing one canonical buffer by another keeps the canonical form of the three. -/
theorem Memory.set_wf {m : Memory} (h : m.wf) (n : BufferName) {b : Buffer} (hb : Buffer.wf b) :
    (m.set n b).wf := by
  obtain ⟨h1, h2, h3⟩ := h
  cases n <;> exact ⟨by assumption, by assumption, by assumption⟩

theorem Memory.get_wf {m : Memory} (h : m.wf) (n : BufferName) : Buffer.wf (m.get n) := by
  obtain ⟨h1, h2, h3⟩ := h
  cases n <;> assumption

theorem Memory.set_within {m : Memory} {p : Params} (h : m.within p) (n : BufferName) {b : Buffer}
    (hb : Buffer.within b (n.bits p)) : (m.set n b).within p := by
  obtain ⟨h1, h2, h3⟩ := h
  cases n <;> exact ⟨by assumption, by assumption, by assumption⟩

theorem Memory.get_within {m : Memory} {p : Params} (h : m.within p) (n : BufferName) :
    Buffer.within (m.get n) (n.bits p) := by
  obtain ⟨h1, h2, h3⟩ := h
  cases n <;> assumption

/-- Every memory operation of the machine keeps the canonical form: a host write of a word. -/
theorem writeWord_wf {b : Buffer} (h : Buffer.wf b) (k : Nat) (w : Word) :
    Buffer.wf (Buffer.writeWord b k w) := putVec_wf h _ _

/-- Reset's memory is canonical. -/
theorem reset_mem_wf : State.reset.mem.wf :=
  ⟨List.Pairwise.nil, List.Pairwise.nil, List.Pairwise.nil⟩

/-! ### Vectors -/

@[simp] theorem length_elements (b : Buffer) (L : Nat) : (Buffer.elements b L).length = L := by
  simp [Buffer.elements]

theorem vecFrom_ok {b : Buffer} {start n : Nat} {v : Bits} (h : Buffer.vecFrom b start n = .ok v) :
    v.length = n ∧ ∀ i, (hi : i < v.length) → Buffer.bit b (start + i) = some v[i] := by
  induction n generalizing start v with
  | zero =>
    simp only [Buffer.vecFrom, Except.ok.injEq] at h
    subst h
    simp
  | succ n ih =>
    rw [Buffer.vecFrom] at h
    split at h
    · cases h
    next x hx =>
      split at h
      · cases h
      next w hw =>
        cases h
        obtain ⟨hl, hb⟩ := ih hw
        refine ⟨by simp [hl], fun i hi => ?_⟩
        cases i with
        | zero => simpa using hx
        | succ i =>
          have := hb i (by simpa using hi)
          rw [show start + (i + 1) = start + 1 + i by omega, this]
          simp

/-- The error names the lowest undefined element of the range. -/
theorem vecFrom_error {b : Buffer} {start n j : Nat} (h : Buffer.vecFrom b start n = .error j) :
    start ≤ j ∧ j < start + n ∧ Buffer.bit b j = none ∧
      ∀ i, start ≤ i → i < j → ∃ x, Buffer.bit b i = some x := by
  induction n generalizing start with
  | zero => simp [Buffer.vecFrom] at h
  | succ n ih =>
    rw [Buffer.vecFrom] at h
    split at h
    next hx =>
      cases h
      exact ⟨le_rfl, by omega, hx, fun i h1 h2 => by omega⟩
    next x hx =>
      split at h
      next k hk =>
        cases h
        obtain ⟨h1, h2, h3, h4⟩ := ih hk
        refine ⟨by omega, by omega, h3, fun i hi hj => ?_⟩
        by_cases hs : i = start
        · exact ⟨x, hs ▸ hx⟩
        · exact h4 i (by omega) hj
      · cases h

/-- A defined range reads as the vector it holds. -/
theorem vecFrom_of_defined {b : Buffer} {n : Nat} (h : Buffer.defined b n) :
    Buffer.vecFrom b 0 n = .ok (Buffer.elements b n) := by
  cases hv : Buffer.vecFrom b 0 n with
  | error j =>
    obtain ⟨-, h2, h3, -⟩ := vecFrom_error hv
    obtain ⟨x, hx⟩ := h j (by omega)
    rw [h3] at hx
    cases hx
  | ok v =>
    obtain ⟨hl, hb⟩ := vecFrom_ok hv
    congr 1
    refine List.ext_getElem (by simp [hl]) (fun i h1 h2 => ?_)
    have := hb i h1
    rw [Nat.zero_add] at this
    simp [Buffer.elements, this]

/-- A range that is not defined reads as its lowest undefined element. -/
theorem vecFrom_of_not_defined {b : Buffer} {n : Nat} (h : ¬ Buffer.defined b n) :
    ∃ j, Buffer.vecFrom b 0 n = .error j ∧ j < n ∧ Buffer.bit b j = none := by
  cases hv : Buffer.vecFrom b 0 n with
  | error j =>
    obtain ⟨-, h2, h3, -⟩ := vecFrom_error hv
    exact ⟨j, rfl, by omega, h3⟩
  | ok v =>
    obtain ⟨hl, hb⟩ := vecFrom_ok hv
    refine absurd (fun j hj => ?_) h
    have := hb j (by omega)
    rw [Nat.zero_add] at this
    exact ⟨_, this⟩

theorem vec_of_defined {m : Memory} {n : BufferName} {L : Nat} (h : Buffer.defined (m.get n) L) :
    m.vec n L = .ok (Buffer.elements (m.get n) L) := by
  simp [Memory.vec, vecFrom_of_defined h]

end Sys2Proof.Machine
end

