-- ==== Sys2Proof/Laws/State.lean ====
section
/-!
SUPPORT. One lemma per field per update of the state, true by rfl, so that no later proof unfolds a record update.
-/

namespace Sys2Proof.Machine.State

variable (s : State)

/-! ### answer -/

@[simp] theorem answer_cfg (w : Word) : (s.answer w).cfg = s.cfg := rfl
@[simp] theorem answer_status (w : Word) : (s.answer w).status = s.status := rfl
@[simp] theorem answer_seedLen (w : Word) : (s.answer w).seedLen = s.seedLen := rfl
@[simp] theorem answer_selector (w : Word) : (s.answer w).selector = s.selector := rfl
@[simp] theorem answer_level (w : Word) : (s.answer w).level = s.level := rfl
@[simp] theorem answer_keyLen (w : Word) : (s.answer w).keyLen = s.keyLen := rfl
@[simp] theorem answer_dataLen (w : Word) : (s.answer w).dataLen = s.dataLen := rfl
@[simp] theorem answer_resSel (w : Word) : (s.answer w).resSel = s.resSel := rfl
@[simp] theorem answer_resLevel (w : Word) : (s.answer w).resLevel = s.resLevel := rfl
@[simp] theorem answer_mem (w : Word) : (s.answer w).mem = s.mem := rfl
@[simp] theorem answer_phase (w : Word) : (s.answer w).phase = s.phase := rfl
@[simp] theorem answer_inbox (w : Word) : (s.answer w).inbox = s.inbox := rfl
@[simp] theorem answer_returned (w : Word) : (s.answer w).returned = w :: s.returned := rfl
@[simp] theorem answer_draws (w : Word) : (s.answer w).draws = s.draws + 1 := rfl
@[simp] theorem answer_busy (w : Word) : (s.answer w).busy = s.busy := rfl

/-! ### dropWrite -/

@[simp] theorem dropWrite_cfg : (s.dropWrite).cfg = s.cfg := rfl
@[simp] theorem dropWrite_status : (s.dropWrite).status = s.status.overrun := rfl
@[simp] theorem dropWrite_seedLen : (s.dropWrite).seedLen = s.seedLen := rfl
@[simp] theorem dropWrite_selector : (s.dropWrite).selector = s.selector := rfl
@[simp] theorem dropWrite_level : (s.dropWrite).level = s.level := rfl
@[simp] theorem dropWrite_keyLen : (s.dropWrite).keyLen = s.keyLen := rfl
@[simp] theorem dropWrite_dataLen : (s.dropWrite).dataLen = s.dataLen := rfl
@[simp] theorem dropWrite_resSel : (s.dropWrite).resSel = s.resSel := rfl
@[simp] theorem dropWrite_resLevel : (s.dropWrite).resLevel = s.resLevel := rfl
@[simp] theorem dropWrite_mem : (s.dropWrite).mem = s.mem := rfl
@[simp] theorem dropWrite_phase : (s.dropWrite).phase = s.phase := rfl
@[simp] theorem dropWrite_inbox : (s.dropWrite).inbox = s.inbox := rfl
@[simp] theorem dropWrite_returned : (s.dropWrite).returned = s.returned := rfl
@[simp] theorem dropWrite_draws : (s.dropWrite).draws = s.draws := rfl
@[simp] theorem dropWrite_busy : (s.dropWrite).busy = s.busy := rfl

/-! ### reject -/

@[simp] theorem reject_cfg (e : ErrorCode) : (s.reject e).cfg = s.cfg := rfl
@[simp] theorem reject_status (e : ErrorCode) : (s.reject e).status = Status.rejected e := rfl
@[simp] theorem reject_seedLen (e : ErrorCode) : (s.reject e).seedLen = s.seedLen := rfl
@[simp] theorem reject_selector (e : ErrorCode) : (s.reject e).selector = s.selector := rfl
@[simp] theorem reject_level (e : ErrorCode) : (s.reject e).level = s.level := rfl
@[simp] theorem reject_keyLen (e : ErrorCode) : (s.reject e).keyLen = s.keyLen := rfl
@[simp] theorem reject_dataLen (e : ErrorCode) : (s.reject e).dataLen = s.dataLen := rfl
@[simp] theorem reject_resSel (e : ErrorCode) : (s.reject e).resSel = s.resSel := rfl
@[simp] theorem reject_resLevel (e : ErrorCode) : (s.reject e).resLevel = s.resLevel := rfl
@[simp] theorem reject_mem (e : ErrorCode) : (s.reject e).mem = s.mem := rfl
@[simp] theorem reject_phase (e : ErrorCode) : (s.reject e).phase = s.phase := rfl
@[simp] theorem reject_inbox (e : ErrorCode) : (s.reject e).inbox = s.inbox := rfl
@[simp] theorem reject_returned (e : ErrorCode) : (s.reject e).returned = s.returned := rfl
@[simp] theorem reject_draws (e : ErrorCode) : (s.reject e).draws = s.draws := rfl
@[simp] theorem reject_busy (e : ErrorCode) : (s.reject e).busy = s.busy := rfl

/-! ### accept -/

@[simp] theorem accept_cfg (r : Running) : (s.accept r).cfg = s.cfg := rfl
@[simp] theorem accept_status (r : Running) : (s.accept r).status = Status.clear := rfl
@[simp] theorem accept_seedLen (r : Running) : (s.accept r).seedLen = s.seedLen := rfl
@[simp] theorem accept_selector (r : Running) : (s.accept r).selector = s.selector := rfl
@[simp] theorem accept_level (r : Running) : (s.accept r).level = s.level := rfl
@[simp] theorem accept_keyLen (r : Running) : (s.accept r).keyLen = s.keyLen := rfl
@[simp] theorem accept_dataLen (r : Running) : (s.accept r).dataLen = s.dataLen := rfl
@[simp] theorem accept_resSel (r : Running) : (s.accept r).resSel = s.resSel := rfl
@[simp] theorem accept_resLevel (r : Running) : (s.accept r).resLevel = s.resLevel := rfl
@[simp] theorem accept_mem (r : Running) : (s.accept r).mem = s.mem := rfl
@[simp] theorem accept_phase (r : Running) : (s.accept r).phase = .running r := rfl
@[simp] theorem accept_inbox (r : Running) : (s.accept r).inbox = s.inbox := rfl
@[simp] theorem accept_returned (r : Running) : (s.accept r).returned = s.returned := rfl
@[simp] theorem accept_draws (r : Running) : (s.accept r).draws = s.draws := rfl

/-! ### setBuffer -/

@[simp] theorem setBuffer_cfg (b : BufferName) (v : Buffer) : (s.setBuffer b v).cfg = s.cfg := rfl
@[simp] theorem setBuffer_status (b : BufferName) (v : Buffer) : (s.setBuffer b v).status = s.status := rfl
@[simp] theorem setBuffer_seedLen (b : BufferName) (v : Buffer) : (s.setBuffer b v).seedLen = s.seedLen := rfl
@[simp] theorem setBuffer_selector (b : BufferName) (v : Buffer) : (s.setBuffer b v).selector = s.selector := rfl
@[simp] theorem setBuffer_level (b : BufferName) (v : Buffer) : (s.setBuffer b v).level = s.level := rfl
@[simp] theorem setBuffer_keyLen (b : BufferName) (v : Buffer) : (s.setBuffer b v).keyLen = s.keyLen := rfl
@[simp] theorem setBuffer_dataLen (b : BufferName) (v : Buffer) : (s.setBuffer b v).dataLen = s.dataLen := rfl
@[simp] theorem setBuffer_resSel (b : BufferName) (v : Buffer) : (s.setBuffer b v).resSel = s.resSel := rfl
@[simp] theorem setBuffer_resLevel (b : BufferName) (v : Buffer) : (s.setBuffer b v).resLevel = s.resLevel := rfl
@[simp] theorem setBuffer_mem (b : BufferName) (v : Buffer) : (s.setBuffer b v).mem = s.mem.set b v := rfl
@[simp] theorem setBuffer_phase (b : BufferName) (v : Buffer) : (s.setBuffer b v).phase = s.phase := rfl
@[simp] theorem setBuffer_inbox (b : BufferName) (v : Buffer) : (s.setBuffer b v).inbox = s.inbox := rfl
@[simp] theorem setBuffer_returned (b : BufferName) (v : Buffer) : (s.setBuffer b v).returned = s.returned := rfl
@[simp] theorem setBuffer_draws (b : BufferName) (v : Buffer) : (s.setBuffer b v).draws = s.draws := rfl
@[simp] theorem setBuffer_busy (b : BufferName) (v : Buffer) : (s.setBuffer b v).busy = s.busy := rfl

/-! ### withInbox -/

@[simp] theorem withInbox_cfg (es : List Event) : (s.withInbox es).cfg = s.cfg := rfl
@[simp] theorem withInbox_status (es : List Event) : (s.withInbox es).status = s.status := rfl
@[simp] theorem withInbox_seedLen (es : List Event) : (s.withInbox es).seedLen = s.seedLen := rfl
@[simp] theorem withInbox_selector (es : List Event) : (s.withInbox es).selector = s.selector := rfl
@[simp] theorem withInbox_level (es : List Event) : (s.withInbox es).level = s.level := rfl
@[simp] theorem withInbox_keyLen (es : List Event) : (s.withInbox es).keyLen = s.keyLen := rfl
@[simp] theorem withInbox_dataLen (es : List Event) : (s.withInbox es).dataLen = s.dataLen := rfl
@[simp] theorem withInbox_resSel (es : List Event) : (s.withInbox es).resSel = s.resSel := rfl
@[simp] theorem withInbox_resLevel (es : List Event) : (s.withInbox es).resLevel = s.resLevel := rfl
@[simp] theorem withInbox_mem (es : List Event) : (s.withInbox es).mem = s.mem := rfl
@[simp] theorem withInbox_phase (es : List Event) : (s.withInbox es).phase = s.phase := rfl
@[simp] theorem withInbox_inbox (es : List Event) : (s.withInbox es).inbox = es := rfl
@[simp] theorem withInbox_returned (es : List Event) : (s.withInbox es).returned = s.returned := rfl
@[simp] theorem withInbox_draws (es : List Event) : (s.withInbox es).draws = s.draws := rfl
@[simp] theorem withInbox_busy (es : List Event) : (s.withInbox es).busy = s.busy := rfl

/-! ### commitDerive -/

@[simp] theorem commitDerive_cfg (ops : DeriveOperands) (key : Bits) : (s.commitDerive ops key).cfg = s.cfg := rfl
@[simp] theorem commitDerive_status (ops : DeriveOperands) (key : Bits) : (s.commitDerive ops key).status = s.status := rfl
@[simp] theorem commitDerive_seedLen (ops : DeriveOperands) (key : Bits) : (s.commitDerive ops key).seedLen = s.seedLen := rfl
@[simp] theorem commitDerive_selector (ops : DeriveOperands) (key : Bits) : (s.commitDerive ops key).selector = s.selector := rfl
@[simp] theorem commitDerive_level (ops : DeriveOperands) (key : Bits) : (s.commitDerive ops key).level = s.level := rfl
@[simp] theorem commitDerive_keyLen (ops : DeriveOperands) (key : Bits) : (s.commitDerive ops key).keyLen = BitVec.ofNat 32 (Config.keyFactor * ops.n) := rfl
@[simp] theorem commitDerive_dataLen (ops : DeriveOperands) (key : Bits) : (s.commitDerive ops key).dataLen = s.dataLen := rfl
@[simp] theorem commitDerive_resSel (ops : DeriveOperands) (key : Bits) : (s.commitDerive ops key).resSel = BitVec.ofNat 6 (resolveSelector ops.sRaw) := rfl
@[simp] theorem commitDerive_resLevel (ops : DeriveOperands) (key : Bits) : (s.commitDerive ops key).resLevel = BitVec.ofNat 3 (resolveLevel ops.lRaw) := rfl
@[simp] theorem commitDerive_mem (ops : DeriveOperands) (key : Bits) : (s.commitDerive ops key).mem = s.mem.set .keyBuf (Buffer.putVec s.mem.keyBuf 0 key) := rfl
@[simp] theorem commitDerive_phase (ops : DeriveOperands) (key : Bits) : (s.commitDerive ops key).phase = s.phase := rfl
@[simp] theorem commitDerive_inbox (ops : DeriveOperands) (key : Bits) : (s.commitDerive ops key).inbox = s.inbox := rfl
@[simp] theorem commitDerive_returned (ops : DeriveOperands) (key : Bits) : (s.commitDerive ops key).returned = s.returned := rfl
@[simp] theorem commitDerive_draws (ops : DeriveOperands) (key : Bits) : (s.commitDerive ops key).draws = s.draws := rfl
@[simp] theorem commitDerive_busy (ops : DeriveOperands) (key : Bits) : (s.commitDerive ops key).busy = s.busy := rfl

/-! ### applyReset -/

@[simp] theorem applyReset_cfg : (s.applyReset).cfg = s.cfg := rfl
@[simp] theorem applyReset_status : (s.applyReset).status = State.reset.status := rfl
@[simp] theorem applyReset_seedLen : (s.applyReset).seedLen = State.reset.seedLen := rfl
@[simp] theorem applyReset_selector : (s.applyReset).selector = State.reset.selector := rfl
@[simp] theorem applyReset_level : (s.applyReset).level = State.reset.level := rfl
@[simp] theorem applyReset_keyLen : (s.applyReset).keyLen = State.reset.keyLen := rfl
@[simp] theorem applyReset_dataLen : (s.applyReset).dataLen = State.reset.dataLen := rfl
@[simp] theorem applyReset_resSel : (s.applyReset).resSel = State.reset.resSel := rfl
@[simp] theorem applyReset_resLevel : (s.applyReset).resLevel = State.reset.resLevel := rfl
@[simp] theorem applyReset_mem : (s.applyReset).mem = State.reset.mem := rfl
@[simp] theorem applyReset_phase : (s.applyReset).phase = State.reset.phase := rfl
@[simp] theorem applyReset_inbox : (s.applyReset).inbox = s.inbox := rfl
@[simp] theorem applyReset_returned : (s.applyReset).returned = s.returned := rfl
@[simp] theorem applyReset_draws : (s.applyReset).draws = s.draws := rfl

/-! ### complete -/

@[simp] theorem complete_cfg (r : Running) : (s.complete r).cfg = (s.commit r).cfg := rfl
@[simp] theorem complete_status (r : Running) : (s.complete r).status = s.status.completed := rfl
@[simp] theorem complete_seedLen (r : Running) : (s.complete r).seedLen = (s.commit r).seedLen := rfl
@[simp] theorem complete_selector (r : Running) : (s.complete r).selector = (s.commit r).selector := rfl
@[simp] theorem complete_level (r : Running) : (s.complete r).level = (s.commit r).level := rfl
@[simp] theorem complete_keyLen (r : Running) : (s.complete r).keyLen = (s.commit r).keyLen := rfl
@[simp] theorem complete_dataLen (r : Running) : (s.complete r).dataLen = (s.commit r).dataLen := rfl
@[simp] theorem complete_resSel (r : Running) : (s.complete r).resSel = (s.commit r).resSel := rfl
@[simp] theorem complete_resLevel (r : Running) : (s.complete r).resLevel = (s.commit r).resLevel := rfl
@[simp] theorem complete_mem (r : Running) : (s.complete r).mem = (s.commit r).mem := rfl
@[simp] theorem complete_phase (r : Running) : (s.complete r).phase = .idle := rfl
@[simp] theorem complete_inbox (r : Running) : (s.complete r).inbox = (s.commit r).inbox := rfl
@[simp] theorem complete_returned (r : Running) : (s.complete r).returned = (s.commit r).returned := rfl
@[simp] theorem complete_draws (r : Running) : (s.complete r).draws = (s.commit r).draws := rfl

/-! ### commit: what no command writes (spec/10_state.md R44) -/

@[simp] theorem commit_cfg (r : Running) : (s.commit r).cfg = s.cfg := by
  rcases r with ⟨_ | _ | _, _, _, _⟩ <;> rfl
@[simp] theorem commit_status (r : Running) : (s.commit r).status = s.status := by
  rcases r with ⟨_ | _ | _, _, _, _⟩ <;> rfl
@[simp] theorem commit_seedLen (r : Running) : (s.commit r).seedLen = s.seedLen := by
  rcases r with ⟨_ | _ | _, _, _, _⟩ <;> rfl
@[simp] theorem commit_selector (r : Running) : (s.commit r).selector = s.selector := by
  rcases r with ⟨_ | _ | _, _, _, _⟩ <;> rfl
@[simp] theorem commit_level (r : Running) : (s.commit r).level = s.level := by
  rcases r with ⟨_ | _ | _, _, _, _⟩ <;> rfl
@[simp] theorem commit_dataLen (r : Running) : (s.commit r).dataLen = s.dataLen := by
  rcases r with ⟨_ | _ | _, _, _, _⟩ <;> rfl
@[simp] theorem commit_phase (r : Running) : (s.commit r).phase = s.phase := by
  rcases r with ⟨_ | _ | _, _, _, _⟩ <;> rfl
@[simp] theorem commit_inbox (r : Running) : (s.commit r).inbox = s.inbox := by
  rcases r with ⟨_ | _ | _, _, _, _⟩ <;> rfl
@[simp] theorem commit_returned (r : Running) : (s.commit r).returned = s.returned := by
  rcases r with ⟨_ | _ | _, _, _, _⟩ <;> rfl
@[simp] theorem commit_draws (r : Running) : (s.commit r).draws = s.draws := by
  rcases r with ⟨_ | _ | _, _, _, _⟩ <;> rfl

/-! ### writeReg: what no register write changes (R73 step 4) -/

@[simp] theorem writeReg_cfg (r : RegName) (w : Word) : (s.writeReg r w).cfg = s.cfg := by
  cases r <;> rfl
@[simp] theorem writeReg_status (r : RegName) (w : Word) : (s.writeReg r w).status = s.status := by
  cases r <;> rfl
@[simp] theorem writeReg_resSel (r : RegName) (w : Word) : (s.writeReg r w).resSel = s.resSel := by
  cases r <;> rfl
@[simp] theorem writeReg_resLevel (r : RegName) (w : Word) : (s.writeReg r w).resLevel = s.resLevel := by
  cases r <;> rfl
@[simp] theorem writeReg_mem (r : RegName) (w : Word) : (s.writeReg r w).mem = s.mem := by
  cases r <;> rfl
@[simp] theorem writeReg_phase (r : RegName) (w : Word) : (s.writeReg r w).phase = s.phase := by
  cases r <;> rfl
@[simp] theorem writeReg_inbox (r : RegName) (w : Word) : (s.writeReg r w).inbox = s.inbox := by
  cases r <;> rfl
@[simp] theorem writeReg_returned (r : RegName) (w : Word) : (s.writeReg r w).returned = s.returned := by
  cases r <;> rfl
@[simp] theorem writeReg_draws (r : RegName) (w : Word) : (s.writeReg r w).draws = s.draws := by
  cases r <;> rfl

/-! ### writeWord -/

@[simp] theorem writeWord_cfg (b : BufferName) (k : Nat) (w : Word) : (s.writeWord b k w).cfg = s.cfg := rfl
@[simp] theorem writeWord_status (b : BufferName) (k : Nat) (w : Word) : (s.writeWord b k w).status = s.status := rfl
@[simp] theorem writeWord_seedLen (b : BufferName) (k : Nat) (w : Word) : (s.writeWord b k w).seedLen = s.seedLen := rfl
@[simp] theorem writeWord_selector (b : BufferName) (k : Nat) (w : Word) : (s.writeWord b k w).selector = s.selector := rfl
@[simp] theorem writeWord_level (b : BufferName) (k : Nat) (w : Word) : (s.writeWord b k w).level = s.level := rfl
@[simp] theorem writeWord_keyLen (b : BufferName) (k : Nat) (w : Word) : (s.writeWord b k w).keyLen = s.keyLen := rfl
@[simp] theorem writeWord_dataLen (b : BufferName) (k : Nat) (w : Word) : (s.writeWord b k w).dataLen = s.dataLen := rfl
@[simp] theorem writeWord_resSel (b : BufferName) (k : Nat) (w : Word) : (s.writeWord b k w).resSel = s.resSel := rfl
@[simp] theorem writeWord_resLevel (b : BufferName) (k : Nat) (w : Word) : (s.writeWord b k w).resLevel = s.resLevel := rfl
@[simp] theorem writeWord_mem (b : BufferName) (k : Nat) (w : Word) : (s.writeWord b k w).mem = s.mem.set b (Buffer.writeWord (s.mem.get b) k w) := rfl
@[simp] theorem writeWord_phase (b : BufferName) (k : Nat) (w : Word) : (s.writeWord b k w).phase = s.phase := rfl
@[simp] theorem writeWord_inbox (b : BufferName) (k : Nat) (w : Word) : (s.writeWord b k w).inbox = s.inbox := rfl
@[simp] theorem writeWord_returned (b : BufferName) (k : Nat) (w : Word) : (s.writeWord b k w).returned = s.returned := rfl
@[simp] theorem writeWord_draws (b : BufferName) (k : Nat) (w : Word) : (s.writeWord b k w).draws = s.draws := rfl

/-! ### busy -/

theorem busy_eq_false_iff : s.busy = false ↔ s.phase = .idle := by
  cases h : s.phase <;> simp [busy, Phase.busy, h]

theorem busy_of_idle (h : s.phase = .idle) : s.busy = false := (busy_eq_false_iff s).mpr h

theorem busy_of_running {r : Running} (h : s.phase = .running r) : s.busy = true := by
  simp [busy, Phase.busy, h]

theorem busy_eq_true_iff : s.busy = true ↔ ∃ r, s.phase = .running r := by
  cases h : s.phase <;> simp [busy, Phase.busy, h]

end Sys2Proof.Machine.State

namespace Sys2Proof.Machine.Memory

variable (m : Memory) (b : Buffer)

@[simp] theorem get_set_same (n : BufferName) : (m.set n b).get n = b := by cases n <;> rfl

theorem get_set_other {n k : BufferName} (h : k ≠ n) : (m.set n b).get k = m.get k := by
  cases n <;> cases k <;> first | rfl | exact absurd rfl h

theorem get_set (n k : BufferName) : (m.set n b).get k = if k = n then b else m.get k := by
  split
  next h => subst h; exact get_set_same m b k
  next h => exact get_set_other m b h

@[simp] theorem set_get (n : BufferName) : m.set n (m.get n) = m := by cases n <;> rfl

end Sys2Proof.Machine.Memory
end

