-- ==== Sys2Proof/Laws/HostProgram.lean ====
section
/-!
SUPPORT. What the performing of events and the end of a host program can do, said once.
-/

namespace Sys2Proof.Machine

theorem perform_nil (s : State) : s.perform [] = some s := rfl

/-- Events happen one part after the other. -/
theorem perform_append (s : State) (a b : List Event) :
    s.perform (a ++ b) = (s.perform a).bind (fun t => t.perform b) := by
  induction a generalizing s with
  | nil => rfl
  | cons e a ih =>
    rw [List.cons_append, State.perform, State.perform]
    cases applyEvent s e <;> simp [ih]

/-- Exactly when a program has the end state `t`. -/
theorem endState_eq_some {s t : State} {prog : List Stmt} {ks : List Nat} {es : List Event} :
    s.endState prog ks es = some t ↔
      endsProgram prog ks es = true ∧ s.perform es = some t ∧ waitsHold prog ks (t.readSince s) = true ∧
        t.busy = false := by
  unfold State.endState
  split
  next h => rw [Option.filter_eq_some_iff]; simp [h]
  next h => simp [h]

/-- Exactly which events are a program's, up to its end. -/
theorem endsProgram_iff {prog : List Stmt} {ks : List Nat} {es : List Event} :
    endsProgram prog ks es = true ↔
      es.filterMap Event.access? = programAccesses prog ks ∧ ∀ e, es.getLast? = some e → ∃ a, e = .access a := by
  unfold endsProgram
  rw [Bool.and_eq_true, beq_iff_eq]
  refine and_congr_right fun _ => ?_
  cases es.getLast? with
  | none => simp
  | some e => cases e <;> simp [Event.access?]

end Sys2Proof.Machine
end

