-- ==== Sys2Proof/Laws/Ops.lean ====
section
/-!
SUPPORT. What each shared operation can do, said once: the issue of a command, a host access, an event, a step. The
provers cite these instead of unfolding the operations.
-/

namespace Sys2Proof.Machine

/-- If the issue of a command answers a next state, the write was dropped, or the command rejected, or accepted. -/
theorem issue_next {s t : State} {check : Option ErrorCode} {start : Except Fault Running}
    (h : issue s check start = .next t) :
    (s.busy = true ∧ t = s.dropWrite) ∨
    (s.busy = false ∧ ∃ e, check = some e ∧ t = s.reject e) ∨
    (s.busy = false ∧ check = none ∧ ∃ r, start = .ok r ∧ t = s.accept r) := by
  unfold issue at h
  split at h
  next hb => cases h; exact .inl ⟨hb, rfl⟩
  next hb =>
    have hb := Bool.eq_false_iff.mpr hb
    split at h
    next e => cases h; exact .inr (.inl ⟨hb, e, rfl, rfl⟩)
    next =>
      split at h
      · cases h
      next r => cases h; exact .inr (.inr ⟨hb, rfl, r, rfl, rfl⟩)

theorem issue_busy {s : State} (h : s.busy = true) (check : Option ErrorCode) (start : Except Fault Running) :
    issue s check start = .next s.dropWrite := by simp [issue, h]

theorem issue_reject {s : State} (h : s.busy = false) (e : ErrorCode) (start : Except Fault Running) :
    issue s (some e) start = .next (s.reject e) := by simp [issue, h]

theorem issue_accept {s : State} (h : s.busy = false) (r : Running) :
    issue s none (.ok r) = .next (s.accept r) := by simp [issue, h]

theorem issue_fault {s : State} (h : s.busy = false) (f : Fault) :
    issue s none (.error f) = .fault f := by simp [issue, h]

/-- If a command's CMD write answers a next state: dropped, rejected by its own check, or accepted with its own
sequencer. -/
theorem exec_next {i : Instr} {s t : State} (h : exec i s = .next t) :
    (s.busy = true ∧ t = s.dropWrite) ∨
    (s.busy = false ∧ ∃ e, t = s.reject e) ∨
    (s.busy = false ∧ ∃ j, t = s.accept ⟨j, j.initial s.cfg, 0, .step1⟩ ∧ j.cur = i ∧ j.current s) := by
  cases i with
  | derive =>
    rcases issue_next h with h | ⟨hb, e, -, rfl⟩ | ⟨hb, hc, r, hr, rfl⟩
    · exact .inl h
    · exact .inr (.inl ⟨hb, e, rfl⟩)
    · cases ho : s.deriveOperands with
      | error f => simp [ho, Except.map] at hr
      | ok ops =>
        simp only [ho, Except.map, Except.ok.injEq] at hr
        subst hr
        exact .inr (.inr ⟨hb, .derive ops, rfl, rfl, hc, ho⟩)
  | encrypt =>
    rcases issue_next h with h | ⟨hb, e, -, rfl⟩ | ⟨hb, hc, r, hr, rfl⟩
    · exact .inl h
    · exact .inr (.inl ⟨hb, e, rfl⟩)
    · cases ho : s.transformOperands with
      | error f => simp [ho, Except.map] at hr
      | ok ops =>
        simp only [ho, Except.map, Except.ok.injEq] at hr
        subst hr
        exact .inr (.inr ⟨hb, .encrypt ops, rfl, rfl, hc, ho⟩)
  | decrypt =>
    rcases issue_next h with h | ⟨hb, e, -, rfl⟩ | ⟨hb, hc, r, hr, rfl⟩
    · exact .inl h
    · exact .inr (.inl ⟨hb, e, rfl⟩)
    · cases ho : s.transformOperands with
      | error f => simp [ho, Except.map] at hr
      | ok ops =>
        simp only [ho, Except.map, Except.ok.injEq] at hr
        subst hr
        exact .inr (.inr ⟨hb, .decrypt ops, rfl, rfl, hc, ho⟩)

/-- If a CMD write answers a next state. -/
theorem issueWord_next {s t : State} {w : Word} (h : issueWord s w = .next t) :
    (s.busy = true ∧ t = s.dropWrite) ∨
    (s.busy = false ∧ ∃ e, t = s.reject e) ∨
    (s.busy = false ∧ ∃ j, t = s.accept ⟨j, j.initial s.cfg, 0, .step1⟩ ∧ decode w = .command j.cur ∧
      j.current s) := by
  unfold issueWord at h
  split at h
  next i hi =>
    rcases exec_next h with h | h | ⟨hb, j, rfl, hc, hj⟩
    · exact .inl h
    · exact .inr (.inl h)
    · exact .inr (.inr ⟨hb, j, rfl, hc ▸ hi, hj⟩)
  next =>
    split at h
    next hb => cases h; exact .inl ⟨hb, rfl⟩
    next hb => cases h; exact .inr (.inl ⟨Bool.eq_false_iff.mpr hb, _, rfl⟩)

theorem hostWrite_busy {s : State} (h : s.busy = true) (t : Target) (w : Word) :
    hostWrite s t w = .next s.dropWrite := by simp [hostWrite, h]

/-- If a host write answers a next state: dropped, a command issued, a register or a buffer word stored. -/
theorem hostWrite_next {s u : State} {t : Target} {w : Word} (h : hostWrite s t w = .next u) :
    (s.busy = true ∧ u = s.dropWrite) ∨
    (s.busy = false ∧ t = .reg .cmd ∧ issueWord s w = .next u) ∨
    (s.busy = false ∧ ∃ r, t = .reg r ∧ r ≠ .cmd ∧ u = s.writeReg r w) ∨
    (s.busy = false ∧ ∃ b k, t = .word b k ∧ u = s.writeWord b k w) := by
  unfold hostWrite at h
  split at h
  next hb => cases h; exact .inl ⟨hb, rfl⟩
  next hb =>
    have hb := Bool.eq_false_iff.mpr hb
    split at h
    next => exact .inr (.inl ⟨hb, rfl, h⟩)
    next r hr => cases h; exact .inr (.inr (.inl ⟨hb, r, rfl, fun e => hr (by rw [e]), rfl⟩))
    next b k => cases h; exact .inr (.inr (.inr ⟨hb, b, k, rfl, rfl⟩))

/-- If a host access answers a next state, R74 and R71 let it through, and it is a read or a write. -/
theorem hostAccess_next {s u : State} {a : Access} (h : hostAccess s a = .next u) :
    ∃ t, accessTarget s.cfg a = some t ∧
      ((a.dir = .read ∧ u = s.answer (s.readTarget t)) ∨ (a.dir = .write ∧ hostWrite s t a.data = .next u)) := by
  unfold hostAccess at h
  split at h
  · cases h
  next t ht =>
    refine ⟨t, ht, ?_⟩
    split at h
    next hd => cases h; exact .inl ⟨hd, rfl⟩
    next hd => exact .inr ⟨hd, h⟩

theorem hostAccess_fault_of_none {s : State} {a : Access} (h : accessTarget s.cfg a = none) :
    hostAccess s a = .fault (.busError a.off a.dir) := by simp [hostAccess, h]

theorem hostAccess_write {s : State} {a : Access} {t : Target} (h : accessTarget s.cfg a = some t)
    (hd : a.dir = .write) : hostAccess s a = hostWrite s t a.data := by simp [hostAccess, h, hd]

theorem hostAccess_read {s : State} {a : Access} {t : Target} (h : accessTarget s.cfg a = some t)
    (hd : a.dir = .read) : hostAccess s a = .next (s.answer (s.readTarget t)) := by
  simp [hostAccess, h, hd, hostRead]

/-- What a step is, by the events to come. -/
theorem step_nil {s : State} (h : s.inbox = []) : step s = .next s.engineTurn := by
  simp [step, nextEvent, h]

theorem step_cons {s : State} {e : Event} {es : List Event} (h : s.inbox = e :: es) :
    step s = applyEvent (s.withInbox es) e := by simp [step, nextEvent, h]

/-- If a step answers a next state: a turn of the engine, a host access or a reset. -/
theorem step_next {s t : State} (h : step s = .next t) :
    (s.inbox = [] ∧ t = s.engineTurn) ∨
    (∃ es, s.inbox = .engine :: es ∧ t = (s.withInbox es).engineTurn) ∨
    (∃ es, s.inbox = .reset :: es ∧ t = (s.withInbox es).applyReset) ∨
    (∃ a es, s.inbox = .access a :: es ∧ hostAccess (s.withInbox es) a = .next t) := by
  cases hi : s.inbox with
  | nil => rw [step_nil hi] at h; cases h; exact .inl ⟨rfl, rfl⟩
  | cons e es =>
    rw [step_cons hi] at h
    cases e with
    | access a => exact .inr (.inr (.inr ⟨a, es, rfl, h⟩))
    | engine => cases h; exact .inr (.inl ⟨es, rfl, rfl⟩)
    | reset => cases h; exact .inr (.inr (.inl ⟨es, rfl, rfl⟩))

/-- The engine's turn: nothing while idle, one step of a round, or the completion. -/
theorem engineTurn_cases (s : State) :
    (s.phase = .idle ∧ s.engineTurn = s) ∨
    (∃ r, s.phase = .running r ∧ r.round < r.job.rounds ∧
      s.engineTurn = { s with phase := .running (r.advance s.cfg) }) ∨
    (∃ r, s.phase = .running r ∧ ¬ r.round < r.job.rounds ∧ s.engineTurn = s.complete r) := by
  cases h : s.phase with
  | idle => exact .inl ⟨rfl, by simp [State.engineTurn, h]⟩
  | running r =>
    by_cases hr : r.round < r.job.rounds
    · exact .inr (.inl ⟨r, rfl, hr, by simp [State.engineTurn, h, hr]⟩)
    · exact .inr (.inr ⟨r, rfl, hr, by simp [State.engineTurn, h, hr]⟩)

/-! ### The state after a completion among host accesses -/

section CompletedWith

variable (s u : State) (j : Job) (wrote : Bool) (later : List Event)

@[simp] theorem completedWith_status :
    (s.completedWith j wrote later u).status = ⟨true, false, s.status.ovr || wrote, 0#4⟩ := rfl
@[simp] theorem completedWith_phase : (s.completedWith j wrote later u).phase = .idle := rfl
@[simp] theorem completedWith_inbox : (s.completedWith j wrote later u).inbox = later := rfl
@[simp] theorem completedWith_mem : (s.completedWith j wrote later u).mem = (s.outputs j).mem := rfl
@[simp] theorem completedWith_keyLen : (s.completedWith j wrote later u).keyLen = (s.outputs j).keyLen := rfl
@[simp] theorem completedWith_resSel : (s.completedWith j wrote later u).resSel = (s.outputs j).resSel := rfl
@[simp] theorem completedWith_resLevel : (s.completedWith j wrote later u).resLevel = (s.outputs j).resLevel := rfl

end CompletedWith

/-! ### Runs -/

theorem runsTo_zero (s : State) : RunsTo 0 s s := rfl

theorem core_run_next {M : Host.Core} {k : Nat} {s t : M.State} (h : M.step s = .next t) :
    M.run (k + 1) s = M.run k t := by rw [Host.Core.run, h]

theorem core_run_inv {M : Host.Core} {k : Nat} {s u : M.State} (h : M.run (k + 1) s = .next u) :
    ∃ t, M.step s = .next t ∧ M.run k t = .next u := by
  rw [Host.Core.run] at h
  split at h
  next t ht => exact ⟨t, ht, h⟩
  next => cases h
  next => cases h

theorem runsTo_succ {k : Nat} {s t u : State} (h : step s = .next t) (hk : RunsTo k t u) :
    RunsTo (k + 1) s u := (core_run_next (M := Sys2Proof.core) h).trans hk

/-- A run of one step more begins with a step. -/
theorem runsTo_succ_inv {k : Nat} {s u : State} (h : RunsTo (k + 1) s u) :
    ∃ t, step s = .next t ∧ RunsTo k t u := core_run_inv (M := Sys2Proof.core) h

theorem runsTo_add {k l : Nat} {s t u : State} (h : RunsTo k s t) (hl : RunsTo l t u) :
    RunsTo (k + l) s u := by
  induction k generalizing s with
  | zero =>
    cases h
    simpa using hl
  | succ k ih =>
    obtain ⟨s', hs, hk⟩ := runsTo_succ_inv h
    rw [Nat.add_right_comm]
    exact runsTo_succ hs (ih hk)

end Sys2Proof.Machine
end

