-- ==== Sys2Proof/Laws/PerInstr.lean ====
section
/-!
SUPPORT. Statements about each command as syntax: it is well-formed, and its word has RSV = 0 and the OP of its row
(spec/30_encoding.md R104, R105).
-/

namespace Sys2Proof.Laws.Encoding

def Statement (i : Instr) : Prop :=
  i.wf ∧ (encode i).extractLsb' 4 28 = 0#28 ∧ (encode i).extractLsb' 0 4 = opcode i

theorem derive : Statement .derive := ⟨trivial, by decide, by decide⟩
theorem encrypt : Statement .encrypt := ⟨trivial, by decide, by decide⟩
theorem decrypt : Statement .decrypt := ⟨trivial, by decide, by decide⟩

end Sys2Proof.Laws.Encoding
end

