-- ==== Sys2Proof/Laws/Primitives.lean ====
section
/-!
SUPPORT. The small lemmas of the shared primitives: every primitive keeps the length of its vector
(spec/44_shared_primitives.md), and the equations later proofs rewrite with.
-/

namespace Sys2Proof.Machine

theorem length_xorVec (a b : Bits) : (xorVec a b).length = min a.length b.length := by simp [xorVec]

theorem length_xorVec_of_eq {a b : Bits} (h : a.length = b.length) : (xorVec a b).length = a.length := by
  simp [xorVec, h]

theorem getElem_xorVec (a b : Bits) (i : Nat) (h : i < (xorVec a b).length) :
    (xorVec a b)[i] = (a[i]'(by simp [xorVec] at h; omega) ^^ b[i]'(by simp [xorVec] at h; omega)) := by
  simp [xorVec]

@[simp] theorem length_tile (v : Bits) (L : Nat) : (tile v L).length = L := by simp [tile]

theorem getElem_tile (v : Bits) (L i : Nat) (h : i < (tile v L).length) :
    (tile v L)[i] = v.getD (i % v.length) false := by simp [tile]

theorem length_flatMap_const {α : Type} (l : List α) (f : α → Bits) (k : Nat) (h : ∀ x ∈ l, (f x).length = k) :
    (l.flatMap f).length = k * l.length := by
  induction l with
  | nil => simp
  | cons x l ih =>
    rw [List.flatMap_cons, List.length_append, h x (by simp), ih (fun y hy => h y (by simp [hy])),
      List.length_cons]
    ring

@[simp] theorem length_subNibbles (t : List Nat) (s : Bits) : (subNibbles t s).length = s.length := by
  unfold subNibbles
  rw [List.length_append, length_flatMap_const _ _ Config.nibbleBits (fun k _ => length_bitsK _ _),
    List.length_range, List.length_drop]
  have := Nat.mul_div_le s.length Config.nibbleBits
  omega

@[simp] theorem length_namebits (n : List Byte) : (namebits n).length = Config.charBits * n.length :=
  length_flatMap_const _ _ _ (fun _ _ => length_bitsK _ _)

@[simp] theorem length_rotl (s : Bits) (k : Nat) : (rotl s k).length = s.length := by
  simp only [rotl, List.length_append, List.length_drop, List.length_take]
  omega

@[simp] theorem length_feedback (s : Bits) : (feedback s).length = s.length := by
  simp only [feedback, length_xorVec, List.length_append, List.length_drop]
  omega

@[simp] theorem length_fwdCascadeFrom (prev : Bool) (s : Bits) : (fwdCascadeFrom prev s).length = s.length := by
  induction s generalizing prev with
  | nil => rfl
  | cons x s ih => simp [fwdCascadeFrom, ih]

@[simp] theorem length_fwdCascade (s : Bits) : (fwdCascade s).length = s.length := by
  cases s <;> simp [fwdCascade]

@[simp] theorem length_bwdCascade (s : Bits) : (bwdCascade s).length = s.length := by
  induction s with
  | nil => rfl
  | cons x s ih =>
    cases h : bwdCascade s with
    | nil =>
      rw [h, List.length_nil] at ih
      simp [bwdCascade, h, ← ih]
    | cons y ys => simp [bwdCascade, h] at ih ⊢; exact ih

@[simp] theorem length_invBwdCascade (s : Bits) : (invBwdCascade s).length = s.length := by
  induction s with
  | nil => rfl
  | cons x s ih => cases s <;> simp_all [invBwdCascade]

@[simp] theorem length_invFwdCascadeFrom (prev : Bool) (s : Bits) :
    (invFwdCascadeFrom prev s).length = s.length := by
  induction s generalizing prev with
  | nil => rfl
  | cons x s ih => simp [invFwdCascadeFrom, ih]

@[simp] theorem length_invFwdCascade (s : Bits) : (invFwdCascade s).length = s.length := by
  cases s <;> simp [invFwdCascade]

@[simp] theorem length_invTranspose (s : Bits) : (invTranspose s).length = s.length := by simp [invTranspose]

/-! ### The grid

Of COLS the lemmas here need only that it is not 0 (R7). -/

theorem cols_pos : 0 < Config.cols := by decide

theorem mem_column {L c i : Nat} (hc : c < Config.cols) :
    i ∈ column L c ↔ i < L ∧ i % Config.cols = c := by
  unfold column
  simp only [List.mem_filter, List.mem_map, List.mem_range, decide_eq_true_eq]
  constructor
  · rintro ⟨⟨r, -, rfl⟩, h⟩
    exact ⟨h, by rw [Nat.mul_add_mod, Nat.mod_eq_of_lt hc]⟩
  · rintro ⟨h, hm⟩
    refine ⟨⟨i / Config.cols, ?_, ?_⟩, h⟩
    · have h0 := cols_pos
      calc i / Config.cols < i / Config.cols + 1 := Nat.lt_succ_self _
        _ = (i + Config.cols) / Config.cols := (Nat.add_div_right i h0).symm
        _ ≤ (L + Config.cols - 1) / Config.cols := Nat.div_le_div_right (by omega)
    · have := Nat.div_add_mod i Config.cols
      omega

theorem mem_perm {L i : Nat} : i ∈ perm L ↔ i < L := by
  unfold perm
  simp only [List.mem_flatMap, List.mem_range]
  constructor
  · rintro ⟨c, hc, hi⟩
    exact ((mem_column hc).mp hi).1
  · intro h
    have hc : i % Config.cols < Config.cols := Nat.mod_lt _ cols_pos
    exact ⟨i % Config.cols, hc, (mem_column hc).mpr ⟨h, rfl⟩⟩

theorem nodup_column (L c : Nat) : (column L c).Nodup := by
  refine List.Nodup.filter _ (List.Nodup.map ?_ List.nodup_range)
  intro a b h
  exact Nat.eq_of_mul_eq_mul_left cols_pos (Nat.add_right_cancel h)

theorem nodup_perm (L : Nat) : (perm L).Nodup := by
  unfold perm
  refine List.nodup_flatMap.mpr ⟨fun c _ => nodup_column L c, ?_⟩
  refine List.Pairwise.imp_of_mem (R := (· ≠ ·)) ?_ List.nodup_range
  intro c d hc hd hcd i hi hj
  exact hcd (((mem_column (List.mem_range.mp hc)).mp hi).2.symm.trans
    ((mem_column (List.mem_range.mp hd)).mp hj).2)

@[simp] theorem length_perm (L : Nat) : (perm L).length = L := by
  have h : (perm L).Perm (List.range L) :=
    (List.perm_ext_iff_of_nodup (nodup_perm L) List.nodup_range).mpr (fun i => by rw [mem_perm, List.mem_range])
  simpa using h.length_eq

@[simp] theorem length_transpose (s : Bits) : (transpose s).length = s.length := by simp [transpose]

/-! ### The steps of the three commands keep the length -/

@[simp] theorem length_deriveStep (p : Params) (sel lvl r : Nat) (pos : Position) (s : Bits) :
    (deriveStep p sel lvl r pos s).length = s.length := by
  cases pos <;> simp [deriveStep, length_xorVec]

@[simp] theorem length_encryptStep (p : Params) (pos : Position) (s : Bits) :
    (encryptStep p pos s).length = s.length := by
  cases pos <;> simp [encryptStep]

@[simp] theorem length_decryptStep (p : Params) (pos : Position) (s : Bits) :
    (decryptStep p pos s).length = s.length := by
  cases pos <;> simp [decryptStep]

@[simp] theorem length_apply (p : Params) (j : Job) (r : Nat) (pos : Position) (s : Bits) :
    (j.apply p r pos s).length = s.length := by
  cases j <;> simp [Job.apply]

@[simp] theorem length_workAt (p : Params) (j : Job) (r : Nat) (pos : Position) :
    (j.workAt p r pos).length = (j.initial p).length := by
  have hr : ((List.range r).foldl (j.roundStep p) (j.initial p)).length = (j.initial p).length := by
    induction r with
    | zero => rfl
    | succ r ih =>
      rw [List.range_succ, List.foldl_append]
      simpa [Job.roundStep, Job.stepsBefore] using ih
  cases pos <;> simp [Job.workAt, Job.stepsBefore, hr]

end Sys2Proof.Machine
end

