-- ==== Sys2Proof/Tests/Slice0.lean ====
section
/-!
SUPPORT. The model's own tests. Expected values are those of spec/95_test_vectors.md, which derives them from the rules
under its configuration TEST, or are written out from the rules a comment names. Then, for every statement of
Certificates/Slice0/Obligations.lean with hypotheses, a witness that meets them together.

A test evaluates the model on fixed values, so every test and witness here depends on the values of all the constants of
spec/00_scope.md R6 that its computation uses (R7). Of the lemmas about the witnesses' states, each docstring names the
constants it depends on.
-/

namespace Sys2Proof.Machine.Tests

/-! ### The configuration TEST (spec/95_test_vectors.md section 0) -/

/-- TEST_SBOX. -/
def testSbox : List Nat := [6, 11, 0, 13, 9, 2, 15, 4, 12, 1, 7, 14, 3, 8, 5, 10]

/-- TEST_NAMES: the letter N and the index in two decimal digits, in ASCII. -/
def testNames : List (List Byte) :=
  (List.range Config.nSel).map (fun i => [0x4E#8, BitVec.ofNat 8 (0x30 + i / 10), BitVec.ofNat 8 (0x30 + i % 10)])

/-- TEST, with the engine at the second block of the address space. -/
def testData : ParamData := ⟨64, testSbox, testNames, 3, 16384⟩

/-- Depends on SBOX_ENTRIES and N_SEL (R7): TEST gives 16 entries and 40 names. -/
theorem test_data_wf : testData.wf := by decide

/-- TEST as a configuration. -/
def P : Params := ⟨testData, test_data_wf⟩

/-- The state after reset, under TEST. -/
def idle : State := { State.reset with cfg := P }

/-- The next state, where there is one. -/
def next? : Host.Outcome State Fault Refusal → Option State
  | .next t => some t
  | _       => none

/-- The fault, where there is one. -/
def fault? : Host.Outcome State Fault Refusal → Option Fault
  | .fault f => some f
  | _        => none

/-! ### WellFormed: an ill-formed term for each check -/

/-- R74: a 16-bit access (V-BU-10). -/
theorem test_wf_size : ¬ (Access.mk .read 0x00C#14 2 0x3#4 0#32).wf := by decide
/-- R74: byte lanes missing. -/
theorem test_wf_lanes : ¬ (Access.mk .write 0x010#14 4 0x7#4 0#32).wf := by decide
/-- R78: a misaligned offset (V-BU-10). -/
theorem test_wf_alignment : ¬ (Access.readAt 0x00E#14).wf := by decide
/-- R8: S_MAX is at least 1. -/
theorem test_wf_sMax_zero : ¬ ({ testData with sMax := 0 } : ParamData).wf := by decide
/-- R8: S_MAX is at most 8192. -/
theorem test_wf_sMax_large : ¬ ({ testData with sMax := 8193 } : ParamData).wf := by decide
/-- R9: a table with an entry twice is no permutation. -/
theorem test_wf_sbox : ¬ ({ testData with sbox := testSbox.set 0 11 } : ParamData).wf := by decide
/-- R8: 39 names are too few. -/
theorem test_wf_names : ¬ ({ testData with names := testNames.drop 1 } : ParamData).wf := by decide
/-- R10: a name longer than NAME_MAX_BYTES. -/
theorem test_wf_name_length : ¬ ({ testData with nameMaxBytes := 2 } : ParamData).wf := by decide
/-- R8: BASE is a multiple of 16384. -/
theorem test_wf_base : ¬ ({ testData with base := 4096 } : ParamData).wf := by decide

/-! ### Decoding: words and offsets written out from the spec's own tables (R104, R105, R71) -/

theorem test_decode_derive : decode 0b00000000000000000000000000000001#32 = .command .derive := by decide
theorem test_decode_encrypt : decode 0b00000000000000000000000000000010#32 = .command .encrypt := by decide
theorem test_decode_decrypt : decode 0b00000000000000000000000000000011#32 = .command .decrypt := by decide
/-- V-ER-1 to V-ER-4. -/
theorem test_decode_illegal : [0x0#32, 0x4#32, 0xF#32, 0x11#32, 0x80000002#32].map decode
    = List.replicate 5 .illegalCommand := by decide
theorem test_decode_table : [1, 2, 3, 0, 0x12].map (decodeTableWord 32)
    = [some .derive, some .encrypt, some .decrypt, none, none] := by decide
/-- The last offset R71 maps and the first it reserves, in each window of TEST (V-BU-5 to V-BU-9). -/
theorem test_decode_offsets :
    [0x0028#14, 0x002C#14, 0x0FFC#14, 0x1004#14, 0x1008#14, 0x1FFC#14, 0x201C#14, 0x2020#14, 0x2FFC#14, 0x301C#14,
      0x3020#14, 0x3FFC#14].map (decodeOffset P)
    = [some (.reg .resLevel), none, none, some (.word .seedBuf 1), none, none, some (.word .keyBuf 7), none, none,
      some (.word .dataBuf 7), none, none] := by decide

/-! ### The primitives (spec/95_test_vectors.md section 2) -/

/-- TEST_INV (V-PR-4). -/
theorem test_inv_sbox : invTable testSbox = [2, 9, 5, 12, 7, 14, 0, 10, 13, 4, 15, 1, 8, 3, 11, 6] := by decide
/-- V-PR-3, selector 31 and level 3: "N31", then 011. -/
theorem test_aux : auxBits P 31 3 = bitsK 27 0b010011100011001100110001011 := by decide
/-- V-PR-5: one full nibble and a partial one. -/
theorem test_subNibbles : subNibbles testSbox (bitsK 6 0b101101) = bitsK 6 0b111001 ∧
    subNibbles (invTable testSbox) (bitsK 6 0b101101) = bitsK 6 0b000101 := by decide
/-- V-PR-6. -/
theorem test_rotl : rotl (bitsK 16 0x0F71) 7 = bitsK 16 0xB887 := by decide
/-- V-PR-7: the wrap-around. -/
theorem test_feedback : feedback (bitsK 8 0x01) = bitsK 8 0x81 := by decide
/-- V-PR-8 to V-PR-11. -/
theorem test_cascades : fwdCascade (bitsK 8 0x5A) = bitsK 8 0x6C ∧ bwdCascade (bitsK 8 0x5A) = bitsK 8 0x36 ∧
    invBwdCascade (bitsK 8 0x5A) = bitsK 8 0xEE ∧ invFwdCascade (bitsK 8 0x5A) = bitsK 8 0x77 := by decide
/-- The cascade pair (spec/95_test_vectors.md after V-PR-11): the last element of 0x80's image is 1, the XOR of all
elements, and not its own 0 (log 21). -/
theorem test_cascade_pair : bwdCascade (fwdCascade (bitsK 8 0x80)) = bitsK 8 0x55 ∧
    bwdCascade (fwdCascade (bitsK 8 0x01)) = bitsK 8 0xFF := by decide
/-- V-PR-12, a short last row. -/
theorem test_perm : perm 11 = [0, 4, 8, 1, 5, 9, 2, 6, 10, 3, 7] := by decide
/-- V-PR-13. -/
theorem test_transpose : transpose (bitsK 10 0b1000001000) = bitsK 10 0b1000000100 ∧
    invTranspose (bitsK 10 0b1000001000) = bitsK 10 0b1010000000 := by decide

/-! ### The commands -/

/-- V-KD-10: the extreme operands. -/
theorem test_derive_extreme : deriveKey P ⟨16, bitsK 16 0x4142, -2147483648, 2147483647⟩
    = bitsK 64 0xE6E9E6E9E6E9E6E9 := by decide +kernel
/-- V-KD-7: an odd seed length. -/
theorem test_derive_odd : deriveKey P ⟨3, bitsK 3 0b101, 2, 2⟩ = bitsK 12 0x5AF := by decide
/-- V-EN-5: a partial nibble and a short last row. -/
theorem test_encrypt_odd : encryptBlock P ⟨10, bitsK 10 0b1010011100, bitsK 10 0b0000000001⟩
    = bitsK 10 0b1111001111 := by decide +kernel
/-- V-EN-1: the document's scenario. -/
theorem test_encrypt_scenario : encryptBlock P ⟨64, bitsK 64 0x594E594E594E594E, bitsK 64 0x4849000000000000⟩
    = bitsK 64 0xFD00882AFAFF0FAA := by decide +kernel
/-- V-DE-13: an input that is no known ciphertext. -/
theorem test_decrypt_arbitrary : decryptBlock P ⟨16, bitsK 16 0xFFFF, bitsK 16 0x1234⟩ = bitsK 16 0xA382 := by
  decide +kernel
/-- V-DE-5. -/
theorem test_decrypt_odd : decryptBlock P ⟨10, bitsK 10 0b1010011100, bitsK 10 0b1111001111⟩
    = bitsK 10 0b0000000001 := by decide +kernel

/-- Each command's word runs as the first one after reset: BUSY is 1 after the step (R280; the lengths are 0). -/
theorem test_step_from_reset :
    [1, 2, 3].map (fun w => (next? (step (State.reset.withFetchWord 32 w))).map State.busy)
    = [some true, some true, some true] := by decide

/-- STATUS after the commands V-ER-1, V-ER-5, V-ER-6 and V-ER-7. -/
theorem test_rejections :
    (next? (issueWord idle 0x0#32)).map (State.regValue · .status) = some 0x26#32 ∧
    (next? (issueWord { idle with seedLen := 65#32 } 0x1#32)).map (State.regValue · .status) = some 0x36#32 ∧
    (next? (issueWord { idle with keyLen := 64#32, dataLen := 16#32 } 0x2#32)).map (State.regValue · .status)
      = some 0x16#32 ∧
    (next? (issueWord { idle with keyLen := 0xFFFFFFFF#32 } 0x3#32)).map (State.regValue · .status) = some 0x36#32 := by
  decide

/-- V-ER-11. -/
theorem test_undefined_operand :
    fault? (issueWord { idle with seedLen := 1#32 } 0x1#32) = some (.undefinedOperand .seedBuf 0) := by decide

/-! ### The host port -/

/-- V-BU-1 to V-BU-3: the words that reads of CMD, PARAM0 and PARAM1 return. -/
theorem test_read_constants :
    [0x008#14, 0x000#14, 0x004#14].map (fun off => (next? (hostAccess idle (Access.readAt off))).map State.returned)
    = [some [0x00000000#32], some [0x00000040#32], some [0x28040203#32]] := by decide

/-- R76: bit 31 of word 1 is element 32, bit 0 element 63. -/
theorem test_write_word :
    (next? (hostAccess idle (Access.writeAt 0x1004#14 0x80000001#32))).map
      (fun t => [31, 32, 33, 62, 63].map (t.element .seedBuf))
    = some [none, some true, some false, some false, some true] := by decide

/-- Row 1 of the program P6: LOADV's accesses. -/
theorem test_loadv : Stmt.accesses 0 (.loadv .seedBuf 40 (.hex [0x4#4, 0x8#4, 0x6#4, 0x5#4, 0x6#4, 0xC#4, 0x6#4, 0xC#4,
      0x6#4, 0xF#4]))
    = [Access.writeAt 0x1000#14 0x48656C6C#32, Access.writeAt 0x1004#14 0x6F000000#32,
      Access.writeAt 0x010#14 0x00000028#32] := by decide

/-- Rows 7 and 8 of the program P2: an EXPECT that holds of the word read, and one that does not. -/
theorem test_expect :
    let prog : List Stmt := [.rd (.word .dataBuf 0) (some "c"), .expect (.named "c") 0xF3C0FFFF none]
    programHolds prog [] [] [0xF3C0FFFF#32] = true ∧ programHolds prog [] [] [0x0040FFFF#32] = false := by decide

/-- R112: a WAIT that polls twice binds `t` to the STATUS word its last read returned (log 17). -/
theorem test_wait_binds :
    let prog : List Stmt := [.wait, .expect (.named "t") 2 none]
    programHolds prog [2] [] [1#32, 2#32] = true ∧ programHolds prog [2] [] [2#32, 2#32] = false := by decide

/-- R291: the program P4 up to its first WAIT has an end state, with RES_SEL 6 and STATUS 2, where the completion comes
before the WAIT's read; DERIVE alone has none, with or without a turn after it. -/
theorem test_end_state :
    let ops := idle.writeReg .selector 7#32
    let derive : Event := .access (cmdWrite 1#32)
    ((ops.endState [.derive, .wait] [1] [derive, .engine, .access (Access.readAt 0x00C#14)]).map
      (fun t => (t.regValue .resSel, t.regValue .status)) = some (6#32, 2#32)) ∧
    ops.endState [.derive] [] [derive] = none ∧ ops.endState [.derive] [] [derive, .engine] = none ∧
    ops.endState [.derive, .wait] [1] [derive, .access (Access.readAt 0x00C#14), .engine] = none := by decide

/-! ### States for the witnesses -/

/-- A vector in a buffer from element 0 defines every range up to its length. -/
theorem defined_cells (v : Bits) (L : Nat) (h : L ≤ v.length) : Buffer.defined (cellsFrom 0 v) L := by
  intro j hj
  refine ⟨v[j], ?_⟩
  simp [Buffer.bit, lookup_cellsFrom]

/-- A whole seed of S_MAX elements, the largest DERIVE accepts. -/
def seeded : State :=
  { idle with seedLen := 64#32, mem := { idle.mem with seedBuf := cellsFrom 0 (bitsK 64 0x4142) } }

/-- A key and a block of 4·S_MAX elements, the largest the transforms accept (V-ER-9). The 256 is KEY_FACTOR times 64
(R7). -/
def loaded : State :=
  { idle with
    keyLen := 256#32, dataLen := 256#32
    mem := { idle.mem with keyBuf := cellsFrom 0 (bitsK 256 7), dataBuf := cellsFrom 0 (bitsK 256 5) } }

/-- DERIVE of the empty seed, just accepted: its completion is the next turn. -/
def running : Running := ⟨.derive idle.deriveOps, [], 0, .step1⟩

/-- The engine while it runs that command. -/
def busy : State := idle.accept running

/-- Depends on no constant of R6: the seed's length is S_MAX. -/
theorem seeded_derivable : seeded.derivable :=
  ⟨rfl, by decide, defined_cells _ _ (by rw [length_bitsK]; decide)⟩

/-- Depends on KEY_FACTOR, which is at least 4 (R7). -/
theorem loaded_transformable : loaded.transformable :=
  ⟨rfl, rfl, by decide, defined_cells _ _ (by rw [length_bitsK]; decide),
    defined_cells _ _ (by rw [length_bitsK]; decide)⟩

/-- Depends on N_SEL not being 0 (R7). -/
theorem idle_inv : idle.Inv := by
  constructor
  case memWithin => refine ⟨?_, ?_, ?_⟩ <;> exact fun c h => absurd h List.not_mem_nil
  case memWf => exact ⟨List.Pairwise.nil, List.Pairwise.nil, List.Pairwise.nil⟩
  all_goals first | decide | (intro r h; cases h)

/-- Depends on N_SEL not being 0 (R7). -/
theorem busy_inv : busy.Inv := by
  constructor
  case memWithin => refine ⟨?_, ?_, ?_⟩ <;> exact fun c h => absurd h List.not_mem_nil
  case memWf => exact ⟨List.Pairwise.nil, List.Pairwise.nil, List.Pairwise.nil⟩
  case jobCurrent => intro r h; cases h; exact ⟨rfl, rfl⟩
  case workExact => intro r h; cases h; rfl
  case roundLe => intro r h; cases h; exact .inr ⟨rfl, rfl⟩
  all_goals decide

/-! ### Witnesses -/

theorem witness_EncodeAndDecodeAgree : Instr.wf .derive ∧ decode 0x3#32 = .command .decrypt := by decide

/-- The first and the last word of each buffer, and offsets decoded to a register and to a word. -/
theorem witness_AddressMapNamesEveryOffsetOnce :
    (0 < BufferName.words P .seedBuf ∧ 1 < BufferName.words P .seedBuf ∧ 7 < BufferName.words P .keyBuf ∧
      7 < BufferName.words P .dataBuf) ∧
    decodeOffset P 0x028#14 = some (.reg .resLevel) ∧ decodeOffset P 0x301C#14 = some (.word .dataBuf 7) := by decide

/-- The first and the last address of the block, and the ones beside it. -/
theorem witness_HostAddressesOfTheBlockAreTheOnesDecoded :
    (P.base ≤ 16384 ∧ 16384 < P.base + 16384) ∧ (P.base ≤ 32767 ∧ 32767 < P.base + 16384) ∧
    16383 < P.base ∧ P.base + 16384 ≤ 32768 := by decide

theorem witness_StepExecutesTheDecodedCommand :
    (idle.withFetchWord 32 2).inbox = .access (cmdWrite 2#32) :: [] ∧ decode 2#32 = .command .encrypt := by decide

/-- RSV ≠ 0, OP = 0 and OP = 4, each while idle. -/
theorem witness_IllegalCommandWordIsRejected :
    idle.phase = .idle ∧
    ((0x11#32).extractLsb' 4 28 ≠ 0#28) ∧ ((0x0#32).extractLsb' 0 4 = 0x0#4) ∧ (0x4#4 ≤ (0x4#32).extractLsb' 0 4) ∧
    [0x11, 0x0, 0x4].map (fun w => (idle.withFetchWord 32 w).inbox)
      = [[.access (cmdWrite 0x11#32)], [.access (cmdWrite 0x0#32)], [.access (cmdWrite 0x4#32)]] := by decide

theorem witness_LengthRangeIsRejectedExactlyBeyondCapacity :
    idle.phase = .idle ∧ (Instr.encrypt = .encrypt ∨ Instr.encrypt = .decrypt) := by decide

theorem witness_LengthMismatchIsRejectedExactlyWithinRange :
    idle.phase = .idle ∧ (Instr.decrypt = .encrypt ∨ Instr.decrypt = .decrypt) ∧
    (next? (exec .derive idle)).isSome := by decide

/-- One clause each: an illegal word, a seed one element too long, a key one element too long, a mismatch in range. -/
theorem witness_ErrorsAreReportedInPriorityOrder :
    idle.phase = .idle ∧ decode 0x12#32 = .illegalCommand ∧
    (decode 0x1#32 = .command .derive ∧ idle.cfg.sMax < (65#32).toNat) ∧
    (decode 0x2#32 = .command .encrypt ∧ 4 * idle.cfg.sMax < (257#32).toNat) ∧
    (decode 0x3#32 = .command .decrypt ∧ (256#32).toNat ≤ 4 * idle.cfg.sMax ∧ (255#32).toNat ≤ 4 * idle.cfg.sMax ∧
      (256#32) ≠ (255#32)) := by decide

theorem witness_CommandIssueIsAllOrNothing :
    idle.phase = .idle ∧ (next? (issueWord idle 0x1#32)).isSome ∧ (next? (issueWord idle 0x0#32)).isSome := by decide

theorem witness_IssuingACommandWritesOnlyStatusAndSequencer :
    [Instr.derive, .encrypt, .decrypt].map (fun i => (next? (exec i idle)).isSome) = [true, true, true] := by decide

/-- A seed that was never written; a key that was never written; a command that faults. -/
theorem witness_UndefinedOperandEndsTheCommand :
    idle.phase = .idle ∧ ((1#32).toNat ≤ idle.cfg.sMax ∧ ¬ Buffer.defined idle.mem.seedBuf (1#32).toNat) ∧
    ((256#32).toNat ≤ 4 * idle.cfg.sMax ∧ ¬ Buffer.defined idle.mem.keyBuf (256#32).toNat) ∧
    fault? (exec .encrypt { idle with keyLen := 256#32, dataLen := 256#32 }) = some (.undefinedOperand .keyBuf 0) :=
  ⟨rfl, ⟨by decide, fun h => by obtain ⟨x, hx⟩ := h 0 (by decide); cases hx⟩,
    ⟨by decide, fun h => by obtain ⟨x, hx⟩ := h 0 (by decide); cases hx⟩, rfl⟩

theorem witness_DeriveIsAcceptedWithItsOperands : seeded.derivable := seeded_derivable

theorem witness_TransformsAreAcceptedWithTheirOperands : loaded.transformable := loaded_transformable

theorem witness_DeriveWritesKeyAndResultsAtCompletion : seeded.derivable ∧ seeded.inbox = [] :=
  ⟨seeded_derivable, rfl⟩

theorem witness_EmptySeedDerivesTheEmptyKey : idle.phase = .idle ∧ idle.seedLen = 0#32 ∧ idle.inbox = [] := by decide

theorem witness_EncryptWritesCiphertextAtCompletion : loaded.transformable ∧ loaded.inbox = [] :=
  ⟨loaded_transformable, rfl⟩

theorem witness_DecryptWritesBlockAtCompletion : loaded.transformable ∧ loaded.inbox = [] :=
  ⟨loaded_transformable, rfl⟩

theorem witness_EmptyTransformsAreNoOps :
    idle.phase = .idle ∧ idle.keyLen = 0#32 ∧ idle.dataLen = 0#32 ∧ idle.inbox = [] := by decide

/-- The state of that statement, over `loaded`. -/
def twice : State :=
  loaded.withInbox
    (.access (cmdWrite (encode .encrypt)) :: List.replicate (Job.turns (.encrypt loaded.transformOps)) .engine ++
      .access (cmdWrite (encode .decrypt)) :: List.replicate (Job.turns (.decrypt loaded.transformOps)) .engine)

theorem witness_EncryptThenDecryptRestoresTheBuffers :
    twice.transformable ∧
    twice.inbox = .access (cmdWrite (encode .encrypt)) :: List.replicate (Job.turns (.encrypt twice.transformOps)) .engine
      ++ .access (cmdWrite (encode .decrypt)) :: List.replicate (Job.turns (.decrypt twice.transformOps)) .engine :=
  ⟨loaded_transformable, rfl⟩

/-- One clause each: a write of SELECTOR and of CMD while busy; OVR set and cleared by a CMD write; a command issued while
idle; a write of STATUS (V-BU-11). -/
theorem witness_WriteWhileBusyIsDroppedAndSetsOvr :
    (busy.busy = true ∧ accessTarget busy.cfg (Access.writeAt 0x014#14 5#32) = some (.reg .selector) ∧
      accessTarget busy.cfg (cmdWrite 1#32) = some (.reg .cmd)) ∧
    (idle.dropWrite.status.ovr = true ∧
      (next? (applyEvent idle.dropWrite (.access (cmdWrite 0#32)))).map (·.status.ovr) = some false) ∧
    (idle.busy = false ∧ (next? (issueWord idle 1#32)).isSome) ∧
    accessTarget busy.cfg (Access.writeAt 0x00C#14 0#32) = none := by decide

/-- Each clause of the rejected accesses at the ends of its range, and the accepted accesses beside them (V-BU-4 to
V-BU-10). -/
theorem witness_BusErrorExactlyOnRejectedAccess :
    ([0x002C#14, 0x0FFC#14, 0x1008#14, 0x1FFC#14, 0x2020#14, 0x2FFC#14, 0x3020#14, 0x3FFC#14, 0x000E#14].map
      (fun off => accessTarget P (Access.readAt off)) = List.replicate 9 none) ∧
    ([0x000#14, 0x004#14, 0x00C#14, 0x024#14, 0x028#14].map (fun off => accessTarget P (Access.writeAt off 0#32))
      = List.replicate 5 none) ∧
    (accessTarget P ⟨.read, 0x00C#14, 2, 0x3#4, 0#32⟩ = none ∧ accessTarget P ⟨.read, 0x00C#14, 4, 0x7#4, 0#32⟩ = none) ∧
    ([0x0028#14, 0x1000#14, 0x1004#14, 0x2000#14, 0x201C#14, 0x3000#14, 0x301C#14].map
      (fun off => (accessTarget P (Access.readAt off)).isSome) = List.replicate 7 true) := by decide

/-- A read of every register is let through, of the last word of a buffer too, and one past the registers is not; both
values of BUSY. -/
theorem witness_HostReadReturnsAndChangesNothing :
    (RegName.all.map (fun r => accessTarget P (Access.readAt (BitVec.ofNat 14 r.offset)))
      = RegName.all.map (fun r => some (.reg r))) ∧
    accessTarget P (Access.readAt 0x201C#14) = some (.word .keyBuf 7) ∧
    accessTarget P (Access.readAt 0x02C#14) = none ∧ idle.busy = false ∧ busy.busy = true := by decide

theorem witness_HostWriteStoresTheBufferWord :
    idle.phase = .idle ∧ accessTarget idle.cfg (Access.writeAt 0x1004#14 1#32) = some (.word .seedBuf 1) := by decide

theorem witness_HostWriteStoresTheOperandRegister :
    idle.phase = .idle ∧
    [0x010#14, 0x014#14, 0x018#14, 0x01C#14, 0x020#14].map (fun off => accessTarget P (Access.writeAt off 9#32))
    = [some (.reg .seedLen), some (.reg .selector), some (.reg .level), some (.reg .keyLen), some (.reg .dataLen)] := by
  decide

theorem witness_ResetLeavesEveryRegisterAtItsResetValue :
    (busy.withInbox [.reset, .engine]).inbox = .reset :: [.engine] := rfl

/-- DERIVE of `seeded`, just accepted: all its rounds are left. -/
def derivingSeeded : Running := ⟨.derive seeded.deriveOps, deriveInitial P seeded.deriveOps, 0, .step1⟩

/-- A write of SELECTOR, a turn of the engine and a poll of STATUS. -/
def meddling : List Event := [.access (Access.writeAt 0x014#14 5#32), .engine, .access (Access.readAt 0x00C#14)]

/-- The engine while it runs DERIVE, with those events to come. -/
def disturbed : State := (seeded.accept derivingSeeded).withInbox meddling

/-- Depends on N_SEL not being 0, and on ROUNDS_GEN not being 0, so that a round is left (R7). -/
theorem disturbed_inv : disturbed.Inv := by
  have hb : Buffer.wf (cellsFrom 0 (bitsK 64 0x4142)) := cellsFrom_wf _ _
  have hs : Buffer.within (cellsFrom 0 (bitsK 64 0x4142)) (BufferName.bits P .seedBuf) := fun c hc => by
    have := (mem_cellsFrom hc).2
    rw [length_bitsK] at this
    exact Nat.lt_of_lt_of_le this (by decide)
  have hd : seeded.mem.vec .seedBuf (uint32 seeded.seedLen) = .ok (Buffer.elements seeded.mem.seedBuf 64) :=
    vec_of_defined seeded_derivable.2.2
  have ho : disturbed.deriveOperands = .ok seeded.deriveOps := by
    have hm : disturbed.mem.vec .seedBuf (uint32 disturbed.seedLen) = .ok _ := hd
    unfold State.deriveOperands
    rw [hm]
    rfl
  constructor
  case memWithin => exact ⟨hs, fun c h => absurd h List.not_mem_nil, fun c h => absurd h List.not_mem_nil⟩
  case memWf => exact ⟨hb, List.Pairwise.nil, List.Pairwise.nil⟩
  case jobCurrent => intro r h; cases h; exact ⟨rfl, ho⟩
  case workExact => intro r h; cases h; rfl
  case roundLe => intro r h; cases h; exact .inl (by decide)
  case errIff => show false = true ↔ 0#4 ≠ 0#4; decide
  case ecodeLe => show (0#4).toNat ≤ 3; decide
  case errDone => intro h; cases h
  case busyNotDone => intro _; rfl
  case resSelLt => exact (by decide : (0#6).toNat < Config.nSel)
  case resLevelLe => exact Nat.zero_le _

/-- Accesses among the engine's turns; and, one turn before the completion, the completion as the next event with a write
of CMD after it. -/
theorem witness_HostAccessesCannotDisturbARunningCommand :
    (disturbed.Inv ∧ disturbed.phase = .running derivingSeeded ∧ disturbed.inbox = meddling ∧
      meddling.count .engine < derivingSeeded.turnsLeft ∧
      (∀ e ∈ meddling, e = .engine ∨ ∃ a, e = .access a ∧ accessTarget disturbed.cfg a ≠ none)) ∧
    (busy.Inv ∧ busy.phase = .running running ∧ ([] : List Event).count .engine < running.turnsLeft ∧
      ([] : List Event).count .engine + 1 = running.turnsLeft ∧
      (busy.withInbox (.engine :: [.access (cmdWrite 1#32)])).inbox = [] ++ .engine :: [.access (cmdWrite 1#32)]) := by
  refine ⟨⟨disturbed_inv, rfl, rfl, by decide, fun e he => ?_⟩, busy_inv, rfl, by decide, by decide, rfl⟩
  rcases List.mem_cons.mp he with rfl | he
  · exact .inr ⟨_, rfl, by decide⟩
  · rcases List.mem_cons.mp he with rfl | he
    · exact .inl rfl
    · rcases List.mem_cons.mp he with rfl | he
      · exact .inr ⟨_, rfl, by decide⟩
      · cases he

/-- A write of a register, of a buffer word and of CMD, and both orders. -/
theorem witness_WriteAndCompletionInEitherOrder :
    busy.phase = .running running ∧ ¬ running.round < running.job.rounds ∧
    [Access.writeAt 0x014#14 5#32, Access.writeAt 0x2000#14 5#32, cmdWrite 2#32].map
      (fun a => (decide (a.dir = .write), accessTarget busy.cfg a))
      = [(true, some (.reg .selector)), (true, some (.word .keyBuf 0)), (true, some (.reg .cmd))] ∧
    (busy.withInbox [.access (cmdWrite 2#32), .engine]).phase = .running running ∧
    (busy.withInbox [.engine, .access (cmdWrite 2#32)]).phase = .running running ∧
    (next? (issueWord (busy.complete running) 2#32)).isSome :=
  ⟨rfl, by decide, by decide, rfl, rfl, by decide⟩

/-- The empty seed's DERIVE and a WAIT: an end state, whose inbox is the start's. -/
theorem witness_EndStateIsTheStateAfterTheLastStatement :
    (idle.endState [.derive, .wait] [1]
      [.access (cmdWrite 1#32), .engine, .access (Access.readAt 0x00C#14)]).map
      (fun t => decide (t.inbox = idle.inbox)) = some true := by decide

theorem witness_NoEndStateWhileACommandRuns : seeded.derivable ∧ loaded.transformable :=
  ⟨seeded_derivable, loaded_transformable⟩

/-- LOADV of 64 elements, the whole of SEED_BUF, and of none. -/
theorem witness_LoadvPlacesTheLiteral :
    idle.phase = .idle ∧ 64 ≤ BufferName.bits idle.cfg .seedBuf ∧ 0 ≤ BufferName.bits idle.cfg .keyBuf ∧
    (idle.withInbox ((Stmt.accesses 0 (.loadv .seedBuf 64 (.bin [true]))).map .access)).inbox
      = (Stmt.accesses 0 (.loadv .seedBuf 64 (.bin [true]))).map .access := ⟨rfl, by decide, by decide, rfl⟩

/-- The completion of a running command: the invariant holds and the step answers a next state. -/
theorem witness_EveryStepKeepsTheInvariant : busy.Inv ∧ step busy = .next (busy.complete running) := ⟨busy_inv, rfl⟩

theorem witness_NoStepChangesTheConfiguration : step busy = .next (busy.complete running) := rfl

/-- The ends of the index ranges, under TEST with a seed of one element. -/
theorem witness_AuxiliaryBitsAreCombinedAndExpanded :
    23 < 8 * (resolvedName P 39).length ∧ 0 < (3 : Nat) ∧ 0 < [true].length ∧ 3 < 4 * [true].length := by decide

/-- The largest operands of the round constant, and the smallest length. -/
theorem witness_RoundConstantAndRotationValues : 39 < 40 ∧ 1 ≤ 4 ∧ 4 ≤ 4 ∧ 2 < 3 ∧ 0 < 1 := by decide

/-- TEST at another base and with a smaller S_MAX: the same tables. -/
theorem witness_DeriveDependsOnlyOnResolvedOperands :
    ({ testData with sMax := 1, base := 0 } : ParamData).wf ∧
    ({ testData with sMax := 1, base := 0 } : ParamData).sbox = P.sbox ∧
    ({ testData with sMax := 1, base := 0 } : ParamData).names = P.names ∧
    ((0 : Int) - 40) % 40 = 0 ∧ ((1 : Int) - (-3)) % 4 = 0 ∧
    (DeriveOperands.mk 1 [true] 0 1).n = (DeriveOperands.mk 1 [true] 40 (-3)).n ∧
    (DeriveOperands.mk 1 [true] 0 1).seed = (DeriveOperands.mk 1 [true] 40 (-3)).seed := by decide

/-- One clause each: n = 8 and n = 4. -/
theorem witness_DerivedKeyIsPeriodic :
    ((bitsK 8 1).length = 8 ∧ 8 % 8 = 0 ∧ 31 < 4 * 8) ∧ ((bitsK 4 10).length = 4 ∧ 4 % 8 = 4 ∧ 15 < 4 * 4) := by decide

theorem witness_NumberAndBitsConvertBothWays : 255 < 2 ^ 8 ∧ 7 < 8 := by decide

theorem witness_SubstitutionReplacesEachFullNibble :
    (∀ x ∈ testSbox, x < 16) ∧ 0 < (bitsK 6 0b101101).length / 4 := by decide

theorem witness_RotationAndFeedbackElements : 0 < [true].length ∧ 1 < [true, false].length := by decide

theorem witness_FeedbackIsLinearAndForgetsComplement : [true, false].length = [false, false].length := by decide

theorem witness_CascadesArePrefixAndSuffixXor : 1 < [true, false].length := by decide

theorem witness_CascadePairHasTheClosedForm : 1 < [true, false].length := by decide

theorem witness_TranspositionOrderIsColumnByColumn :
    (3 < 4 ∧ 4 * 1 + 3 < 8) ∧ (0 < 4 ∧ 4 * 2 + 0 < 9) ∧ 4 ≤ 4 := by decide

theorem witness_TranspositionIsInvertible : (perm [true, false].length)[1]? = some 1 := by decide

theorem witness_EncryptionAndDecryptionRoundTrip : [true].length = [false].length := by decide

theorem witness_EncryptionIsABijection :
    [true].length = [false].length ∧
    encryptBlock P ⟨1, [true], [false]⟩ = encryptBlock P ⟨1, [true], [false]⟩ := ⟨rfl, rfl⟩

end Sys2Proof.Machine.Tests
end

section
/-!
PROOFS. The conventions of spec/00_scope.md: the host address of the block (R8, with spec/20_memory.md R70) and the
conversion of numbers to bits and back (R14).
-/

namespace Sys2Proof

/-! ### The host address of the block -/

theorem Params.blockBytes_dvd_base (p : Params) : Config.blockBytes ∣ p.base := by
  obtain ⟨-, -, -, -, haligned⟩ := p.ok
  exact Nat.dvd_of_mod_eq_zero haligned

/-- BASE being aligned, an address has BASE's bits above 13 exactly when it lies inside the block. -/
theorem div_blockBytes_eq_base_iff (p : Params) (addr : Nat) :
    addr / Config.blockBytes = p.base / Config.blockBytes ↔ p.base ≤ addr ∧ addr < p.base + 16384 := by
  obtain ⟨c, hc⟩ := p.blockBytes_dvd_base
  simp only [Config.blockBytes] at hc ⊢
  omega

theorem decodeAddress_of_outside {p : Params} {addr : Nat} (h : addr < p.base ∨ p.base + 16384 ≤ addr) :
    decodeAddress p addr = none :=
  if_neg fun hdiv => by have := (div_blockBytes_eq_base_iff p addr).mp hdiv; omega

/-- Inside the block the low 14 bits of the address are its distance from BASE. -/
theorem decodeAddress_of_inside {p : Params} {addr : Nat} (hlo : p.base ≤ addr) (hhi : addr < p.base + 16384) :
    decodeAddress p addr = some (BitVec.ofNat 14 (addr - p.base)) := by
  obtain ⟨c, hc⟩ := p.blockBytes_dvd_base
  have hlow : BitVec.ofNat 14 addr = BitVec.ofNat 14 (addr - p.base) := by
    apply BitVec.eq_of_toNat_eq
    simp only [Config.blockBytes] at hc
    simp only [BitVec.toNat_ofNat]
    omega
  rw [decodeAddress, if_pos ((div_blockBytes_eq_base_iff p addr).mpr ⟨hlo, hhi⟩), hlow]

/-- Settles O4: BASE is a multiple of the block's size, so the bits above 13 select the block and the others are the
distance. -/
theorem hostAddressesOfTheBlockAreTheOnesDecoded : Obligations.HostAddressesOfTheBlockAreTheOnesDecoded :=
  fun _ _ => ⟨decodeAddress_of_inside, decodeAddress_of_outside⟩

end Sys2Proof

namespace Sys2Proof.Machine

/-! ### Numbers and bits, the last element the least significant -/

@[simp] theorem val_append_singleton (b : Bits) (x : Bool) : val (b ++ [x]) = 2 * val b + x.toNat := by
  simp [val]

theorem bitsK_succ (k x : Nat) : bitsK (k + 1) x = bitsK k (x / 2) ++ [x % 2 == 1] := by
  have hhalf : ∀ t ∈ List.range k, (x / 2 ^ (k - t) % 2 == 1) = (x / 2 / 2 ^ (k - 1 - t) % 2 == 1) := by
    intro t ht
    have hexp : k - t = k - 1 - t + 1 := by have := List.mem_range.mp ht; omega
    rw [hexp, Nat.pow_succ', Nat.div_div_eq_div_mul]
  simpa [bitsK, List.range_succ] using hhalf

theorem val_bitsK (k x : Nat) : val (bitsK k x) = x % 2 ^ k := by
  induction k generalizing x with
  | zero => simp [bitsK, val, Nat.mod_one]
  | succ k ih =>
    have hdigit : (x % 2 == 1).toNat = x % 2 := by
      obtain h | h := Nat.mod_two_eq_zero_or_one x <;> simp [h]
    rw [bitsK_succ, val_append_singleton, ih, hdigit, Nat.pow_succ', Nat.mod_mul, Nat.add_comm]

theorem val_lt_two_pow_length (b : Bits) : val b < 2 ^ b.length := by
  induction b using List.reverseRecOn with
  | nil => simp [val]
  | append_singleton b x ih =>
    have := x.toNat_lt
    rw [val_append_singleton, List.length_append, List.length_singleton, Nat.pow_succ']
    omega

@[simp] theorem bitsK_length_val (b : Bits) : bitsK b.length (val b) = b := by
  induction b using List.reverseRecOn with
  | nil => rfl
  | append_singleton b x ih =>
    have hhalf : (2 * val b + x.toNat) / 2 = val b := by have := x.toNat_lt; omega
    have hlast : ((2 * val b + x.toNat) % 2 == 1) = x := by cases x <;> simp
    rw [val_append_singleton, List.length_append, List.length_singleton, bitsK_succ, hhalf, hlast, ih]

theorem getElem?_bitsK {k x t : Nat} (h : t < k) :
    (bitsK k x)[t]? = some (x / 2 ^ (k - 1 - t) % 2 == 1) := by
  have ht : t < (bitsK k x).length := by rwa [length_bitsK]
  rw [List.getElem?_eq_getElem ht, getElem_bitsK]

/-- Settles O38: both inverses by induction on the number of digits, the last digit being the one split off. -/
theorem numberAndBitsConvertBothWays : Obligations.NumberAndBitsConvertBothWays :=
  ⟨fun k x h => by rw [val_bitsK, Nat.mod_eq_of_lt h],
   fun b => ⟨bitsK_length_val b, val_lt_two_pow_length b⟩,
   fun _ _ _ => getElem?_bitsK⟩

end Sys2Proof.Machine
end

section
/-!
PROOFS. The engine's state (spec/10_state.md R30 to R60): the issue of a command and its frame, the operand registers,
reset, the configuration, and the invariant of every reachable state.
-/

namespace Sys2Proof.Machine

/-! ### The frame of a command's issue (R44, R45) -/

/-- The drop, the rejection and the acceptance alike: a command's issue replaces STATUS and the sequencer. -/
theorem exec_frame {i : Instr} {s t : State} (h : exec i s = .next t) :
    t = { s with status := t.status, phase := t.phase } := by
  obtain ⟨-, rfl⟩ | ⟨-, e, rfl⟩ | ⟨-, j, rfl, -⟩ := exec_next h <;> rfl

theorem regValue_eq_of_ne_status (s : State) (st : Status) (ph : Phase) {r : RegName} (h : r ≠ .status) :
    ({ s with status := st, phase := ph } : State).regValue r = s.regValue r := by
  cases r
  case status => exact absurd rfl h
  all_goals rfl

/-- Settles O11: the frame equation, read at each buffer element and at each register but STATUS. -/
theorem issuingACommandWritesOnlyStatusAndSequencer :
    Obligations.IssuingACommandWritesOnlyStatusAndSequencer := by
  intro i s t h
  have hframe := exec_frame h
  refine ⟨hframe, fun b j => ?_, fun r hr => ?_⟩
  · rw [hframe]; rfl
  · rw [hframe]; exact regValue_eq_of_ne_status s t.status t.phase hr

/-! ### The operand registers (R35 to R39) -/

theorem hostWrite_reg_of_idle {s : State} (h : s.phase = .idle) {r : RegName} (hr : r ≠ .cmd) (w : Word) :
    hostWrite s (.reg r) w = .next (s.writeReg r w) := by
  cases r
  case cmd => exact absurd rfl hr
  all_goals simp [hostWrite, s.busy_of_idle h]

/-- Settles O25: each of the five registers is stored by State.writeReg, which takes the whole word. -/
theorem hostWriteStoresTheOperandRegister : Obligations.HostWriteStoresTheOperandRegister := by
  intro s a hidle hdir
  have hstore : ∀ r, r ≠ RegName.cmd → accessTarget s.cfg a = some (.reg r) →
      hostAccess s a = .next (s.writeReg r a.data) := fun r hr ht =>
    (hostAccess_write ht hdir).trans (hostWrite_reg_of_idle hidle hr a.data)
  exact ⟨hstore .seedLen (by decide), hstore .selector (by decide), hstore .level (by decide),
    hstore .keyLen (by decide), hstore .dataLen (by decide)⟩

/-! ### Reset (R60, R271) -/

/-- S_MAX fits bits 15:0 of PARAM0, so the word's value is S_MAX. -/
theorem param0_eq_ofNat_sMax (p : Params) : param0 p = BitVec.ofNat 32 p.sMax := by
  obtain ⟨⟨-, hle⟩, -⟩ := p.ok
  have hmax : p.sMax ≤ 8192 := hle
  apply BitVec.eq_of_toNat_eq
  have hlow : p.sMax % 2 ^ 16 = p.sMax % 2 ^ 32 := by omega
  simp only [param0, BitVec.toNat_cast, BitVec.toNat_append, BitVec.toNat_ofNat]
  simpa using hlow

theorem applyReset_atResetValues (s : State) : s.applyReset.AtResetValues where
  param0   := param0_eq_ofNat_sMax s.cfg
  param1   := rfl
  status   := show Status.clear.word false = 0x00000000#32 by decide
  seedLen  := rfl
  selector := rfl
  level    := rfl
  keyLen   := rfl
  dataLen  := rfl
  resSel   := rfl
  resLevel := rfl
  buffers  := fun b _ => by cases b <;> rfl
  phase    := rfl

theorem applyReset_reset : State.reset.applyReset = State.reset := rfl

/-- Settles O26: State.reset is the reset of itself, and the reset event takes every state to its reset. -/
theorem resetLeavesEveryRegisterAtItsResetValue : Obligations.ResetLeavesEveryRegisterAtItsResetValue :=
  ⟨applyReset_reset ▸ applyReset_atResetValues State.reset,
   fun s es h => ⟨(s.withInbox es).applyReset, step_cons h, applyReset_atResetValues _, rfl, rfl⟩⟩

/-! ### What a host access can do -/

theorem decodeWindow_eq_some {p : Params} {b : BufferName} {off : Nat} {t : Target}
    (h : decodeWindow p b off = some t) : ∃ w, t = .word b w ∧ w < b.words p := by
  dsimp only [decodeWindow] at h
  split at h
  next hw => cases h; exact ⟨_, rfl, hw.2⟩
  next => cases h

/-- The address map names only words the buffer has (R71). -/
theorem word_lt_of_decodeOffset {p : Params} {off : BitVec 14} {b : BufferName} {k : Nat}
    (h : decodeOffset p off = some (.word b k)) : k < b.words p := by
  have hwindow : ∀ {c a}, decodeWindow p c a = some (.word b k) → k < b.words p := fun h => by
    obtain ⟨w, heq, hw⟩ := decodeWindow_eq_some h
    cases heq
    exact hw
  dsimp only [decodeOffset] at h
  split_ifs at h
  · simp at h
  all_goals exact hwindow h

theorem word_lt_of_accessTarget {p : Params} {a : Access} {b : BufferName} {k : Nat}
    (h : accessTarget p a = some (.word b k)) : k < b.words p := by
  unfold accessTarget at h
  split at h
  next => exact word_lt_of_decodeOffset (Option.filter_eq_some_iff.mp h).1
  next => cases h

/-- Every next state a host access can answer: a read's, a dropped write's, and while idle a rejected or accepted
command's, a register's or a buffer word's. -/
theorem hostAccess_cases {s u : State} {a : Access} (h : hostAccess s a = .next u) :
    (∃ w, u = s.answer w) ∨
    (s.busy = true ∧ u = s.dropWrite) ∨
    (s.phase = .idle ∧ ∃ e, u = s.reject e) ∨
    (s.phase = .idle ∧ ∃ j : Job, j.current s ∧ u = s.accept ⟨j, j.initial s.cfg, 0, .step1⟩) ∨
    (s.phase = .idle ∧ ∃ r w, u = s.writeReg r w) ∨
    (s.phase = .idle ∧ ∃ b k w, k < b.words s.cfg ∧ u = s.writeWord b k w) := by
  obtain ⟨t, ht, ⟨-, rfl⟩ | ⟨-, hw⟩⟩ := hostAccess_next h
  · exact .inl ⟨_, rfl⟩
  simp only [← State.busy_eq_false_iff]
  obtain hdrop | ⟨-, -, hi⟩ | ⟨hb, r, -, -, rfl⟩ | ⟨hb, b, k, rfl, rfl⟩ := hostWrite_next hw
  · exact .inr (.inl hdrop)
  · obtain hdrop | ⟨hb, hrej⟩ | ⟨hb, j, rfl, -, hj⟩ := issueWord_next hi
    · exact .inr (.inl hdrop)
    · exact .inr (.inr (.inl ⟨hb, hrej⟩))
    · exact .inr (.inr (.inr (.inl ⟨hb, j, hj, rfl⟩)))
  · exact .inr (.inr (.inr (.inr (.inl ⟨hb, r, _, rfl⟩))))
  · exact .inr (.inr (.inr (.inr (.inr ⟨hb, b, k, _, word_lt_of_accessTarget ht, rfl⟩))))

/-! ### The configuration (R56) -/

@[simp] theorem engineTurn_cfg (s : State) : s.engineTurn.cfg = s.cfg := by
  obtain ⟨-, h⟩ | ⟨r, -, -, h⟩ | ⟨r, -, -, h⟩ := engineTurn_cases s <;> simp [h]

theorem hostAccess_cfg {s u : State} {a : Access} (h : hostAccess s a = .next u) : u.cfg = s.cfg := by
  obtain ⟨w, rfl⟩ | ⟨-, rfl⟩ | ⟨-, e, rfl⟩ | ⟨-, j, -, rfl⟩ | ⟨-, r, w, rfl⟩ | ⟨-, b, k, w, -, rfl⟩ :=
    hostAccess_cases h <;> simp

theorem step_cfg {s t : State} (h : step s = .next t) : t.cfg = s.cfg := by
  obtain ⟨-, rfl⟩ | ⟨es, -, rfl⟩ | ⟨es, -, rfl⟩ | ⟨a, es, -, ha⟩ := step_next h
  · simp
  · simp
  · simp
  · exact (hostAccess_cfg ha).trans (s.withInbox_cfg es)

/-- Settles O32: PARAM0 is a function of the configuration, which stands, and PARAM1 is constant. -/
theorem noStepChangesTheConfiguration : Obligations.NoStepChangesTheConfiguration :=
  fun _ _ h => ⟨step_cfg h, congrArg param0 (step_cfg h), rfl⟩

end Sys2Proof.Machine
end

section
/-!
PROOFS. The invariant of every reachable state (spec/10_state.md R34, R40, R42, R43, R50; spec/70_reset_and_hazards.md
R281): it falls into STATUS, the result registers, the buffers and the sequencer, and each kind of event keeps each part.
-/

namespace Sys2Proof.Machine

/-! ### Operands that were captured -/

theorem length_of_vec_ok {m : Memory} {n : BufferName} {L : Nat} {v : Bits} (h : m.vec n L = .ok v) :
    v.length = L := by
  unfold Memory.vec at h
  split at h
  next => cases h
  next hv => cases h; exact (vecFrom_ok hv).1

theorem deriveOperands_lengths {s : State} {ops : DeriveOperands} (h : s.deriveOperands = .ok ops) :
    ops.n = uint32 s.seedLen ∧ ops.seed.length = ops.n := by
  unfold State.deriveOperands at h
  split at h
  next => cases h
  next hv => cases h; exact ⟨rfl, length_of_vec_ok hv⟩

theorem transformOperands_lengths {s : State} {ops : TransformOperands} (h : s.transformOperands = .ok ops) :
    ops.len = uint32 s.keyLen ∧ ops.key.length = ops.len ∧ ops.text.length = ops.len := by
  unfold State.transformOperands at h
  split at h
  next => cases h
  next hkey =>
    split at h
    next => cases h
    next htext => cases h; exact ⟨rfl, length_of_vec_ok hkey, length_of_vec_ok htext⟩

theorem deriveCheck_eq_none_iff {s : State} : s.deriveCheck = none ↔ uint32 s.seedLen ≤ s.cfg.sMax := by
  simp [State.deriveCheck]

theorem transformCheck_eq_none_iff {s : State} :
    s.transformCheck = none ↔
      uint32 s.keyLen ≤ s.cfg.lMax ∧ uint32 s.dataLen ≤ s.cfg.lMax ∧ uint32 s.keyLen = uint32 s.dataLen := by
  unfold State.transformCheck
  split_ifs with hrange hne
  · simp only [false_iff]
    omega
  · simp [hne]
  · simp only [true_iff]
    omega

/-! ### The lengths of the working vectors -/

@[simp] theorem length_combine (p : Params) (sel lvl : Nat) (seed : Bits) :
    (combine p sel lvl seed).length = seed.length := by simp [combine, length_xorVec]

@[simp] theorem length_expand (c : Bits) : (expand c).length = Config.keyFactor * c.length := by simp [expand]

theorem length_deriveInitial {p : Params} {ops : DeriveOperands} (h : ops.seed.length = ops.n) :
    (deriveInitial p ops).length = Config.keyFactor * ops.n := by
  unfold deriveInitial
  split
  next hn => simp [hn]
  next => simp [h]

/-- The checks keep every command's working vector within L_MAX (R242). -/
theorem length_initial_le_lMax {s : State} {j : Job} (h : j.current s) :
    (j.initial s.cfg).length ≤ s.cfg.lMax := by
  cases j with
  | derive ops =>
    obtain ⟨hcheck, hops⟩ := h
    obtain ⟨hn, hseed⟩ := deriveOperands_lengths hops
    rw [Job.initial, length_deriveInitial hseed, hn]
    exact Nat.mul_le_mul_left _ (deriveCheck_eq_none_iff.mp hcheck)
  | encrypt ops =>
    obtain ⟨hcheck, hops⟩ := h
    obtain ⟨hlen, -, htext⟩ := transformOperands_lengths hops
    have hrange := (transformCheck_eq_none_iff.mp hcheck).1
    rw [Job.initial, encryptInitial, length_xorVec]
    omega
  | decrypt ops =>
    obtain ⟨hcheck, hops⟩ := h
    obtain ⟨hlen, -, htext⟩ := transformOperands_lengths hops
    have hrange := (transformCheck_eq_none_iff.mp hcheck).1
    rw [Job.initial, decryptInitial]
    omega

/-! ### Where a command's output goes -/

/-- The buffer a command writes at its completion (R44). -/
def Job.outputBuffer : Job → BufferName
  | .derive _  => .keyBuf
  | .encrypt _ => .dataBuf
  | .decrypt _ => .dataBuf

/-- The vector a command writes to its output buffer, its rounds being finished. -/
def Running.output (r : Running) : Bits :=
  match r.job with
  | .derive _    => r.work
  | .encrypt _   => r.work
  | .decrypt ops => unwhiten ops r.work

theorem commit_mem (s : State) (r : Running) :
    (s.commit r).mem =
      s.mem.set r.job.outputBuffer (Buffer.putVec (s.mem.get r.job.outputBuffer) 0 r.output) := by
  obtain ⟨j, work, round, pos⟩ := r
  cases j <;> rfl

theorem length_output_le (r : Running) : r.output.length ≤ r.work.length := by
  obtain ⟨j, work, round, pos⟩ := r
  cases j with
  | derive ops => exact le_rfl
  | encrypt ops => exact le_rfl
  | decrypt ops =>
    calc (unwhiten ops work).length = min work.length ops.key.length := length_xorVec ..
      _ ≤ work.length := min_le_left ..

theorem le_wordBits_mul_ceilDiv (n : Nat) : n ≤ Config.wordBits * ceilDiv n Config.wordBits := by
  simp only [Config.wordBits, ceilDiv]
  omega

/-- Both output buffers hold L_MAX elements (R40). -/
theorem lMax_le_bits_outputBuffer (p : Params) (j : Job) : p.lMax ≤ j.outputBuffer.bits p := by
  cases j <;> exact le_wordBits_mul_ceilDiv _

/-! ### STATUS -/

/-- The part of the invariant that is about STATUS. -/
structure Status.Legal (st : Status) (busy : Bool) : Prop where
  errIff      : st.err = true ↔ st.ecode ≠ 0#4
  ecodeLe     : st.ecode.toNat ≤ 3
  errDone     : st.err = true → st.done = true
  busyNotDone : busy = true → st.done = false

theorem Status.Legal.overrun {st : Status} {busy : Bool} (h : st.Legal busy) : st.overrun.Legal busy :=
  ⟨h.errIff, h.ecodeLe, h.errDone, h.busyNotDone⟩

theorem Status.Legal.completed {st : Status} {busy : Bool} (h : st.Legal busy) : st.completed.Legal false :=
  ⟨h.errIff, h.ecodeLe, fun _ => rfl, nofun⟩

theorem Status.legal_clear (busy : Bool) : Status.clear.Legal busy :=
  ⟨by decide, by decide, nofun, fun _ => rfl⟩

theorem Status.legal_rejected (e : ErrorCode) : (Status.rejected e).Legal false where
  errIff      := by cases e <;> decide
  ecodeLe     := by cases e <;> decide
  errDone     := fun _ => rfl
  busyNotDone := nofun

/-! ### The result registers -/

/-- The part of the invariant that is about RES_SEL and RES_LEVEL. -/
def State.LegalResults (s : State) : Prop :=
  s.resSel.toNat < Config.nSel ∧ s.resLevel.toNat ≤ Config.levelMod

/-- Depends on N_SEL not being 0 (R7). -/
theorem resolveSelector_lt (z : Int) : resolveSelector z < Config.nSel := by
  simp only [resolveSelector, Config.nSel]
  omega

/-- Depends on LEVEL_MOD not being 0 (R7). -/
theorem resolveLevel_le (z : Int) : resolveLevel z ≤ Config.levelMod := by
  simp only [resolveLevel, Config.levelMod]
  omega

theorem State.LegalResults.commit {s : State} (h : s.LegalResults) (r : Running) :
    (s.commit r).LegalResults := by
  obtain ⟨j, work, round, pos⟩ := r
  cases j with
  | derive ops =>
    constructor
    · calc (BitVec.ofNat 6 (resolveSelector ops.sRaw)).toNat ≤ resolveSelector ops.sRaw := Nat.mod_le ..
        _ < Config.nSel := resolveSelector_lt _
    · calc (BitVec.ofNat 3 (resolveLevel ops.lRaw)).toNat ≤ resolveLevel ops.lRaw := Nat.mod_le ..
        _ ≤ Config.levelMod := resolveLevel_le _
  | encrypt ops => exact h
  | decrypt ops => exact h

/-! ### The buffers -/

/-- The part of the invariant that is about the buffers. -/
def State.LegalMemory (s : State) : Prop := s.mem.wf ∧ s.mem.within s.cfg

/-- A vector that fits its buffer keeps the buffers legal. -/
theorem putVec_legalMemory {s : State} (h : s.LegalMemory) {b : BufferName} {start : Nat} {v : Bits}
    (hfits : start + v.length ≤ b.bits s.cfg) :
    (s.setBuffer b (Buffer.putVec (s.mem.get b) start v)).LegalMemory := by
  obtain ⟨hwf, hwithin⟩ := h
  exact ⟨Memory.set_wf hwf b (putVec_wf (Memory.get_wf hwf b) start v),
    Memory.set_within hwithin b (putVec_within (Memory.get_within hwithin b) hfits)⟩

theorem writeWord_legalMemory {s : State} (h : s.LegalMemory) {b : BufferName} {k : Nat} (w : Word)
    (hk : k < b.words s.cfg) : (s.writeWord b k w).LegalMemory := by
  refine putVec_legalMemory h ?_
  simp only [length_wordElements, BufferName.bits, Config.wordBits]
  omega

/-! ### The sequencer -/

/-- The part of the invariant that is about a running command. -/
structure Running.Exact (r : Running) (s : State) : Prop where
  current : r.job.current s
  work    : r.work = r.job.workAt s.cfg r.round r.pos
  round   : r.round < r.job.rounds ∨ (r.round = r.job.rounds ∧ r.pos = .step1)

/-- A command's operands do not depend on STATUS, the sequencer, or the model's own fields. -/
theorem current_frame {s : State} (j : Job) (st : Status) (ph : Phase) (es : List Event) (ws : List Word) (n : Nat) :
    j.current { s with status := st, phase := ph, inbox := es, returned := ws, draws := n } ↔ j.current s := by
  cases j <;> exact Iff.rfl

theorem Running.Exact.frame {r : Running} {s : State} (h : r.Exact s) (st : Status) (ph : Phase) (es : List Event)
    (ws : List Word) (n : Nat) :
    r.Exact { s with status := st, phase := ph, inbox := es, returned := ws, draws := n } :=
  ⟨(current_frame r.job st ph es ws n).mpr h.current, h.work, h.round⟩

theorem exact_initial {s : State} {j : Job} (h : j.current s) :
    Running.Exact ⟨j, j.initial s.cfg, 0, .step1⟩ s where
  current := h
  work    := rfl
  round   := (Nat.eq_zero_or_pos j.rounds).symm.imp id fun hz => ⟨hz.symm, rfl⟩

theorem workAt_next {p : Params} {j : Job} {r : Nat} {pos pos' : Position} (h : pos.next = some pos') :
    j.workAt p r pos' = j.apply p r pos (j.workAt p r pos) := by
  cases pos <;> cases h <;> rfl

theorem workAt_succ (p : Params) (j : Job) (r : Nat) :
    j.workAt p (r + 1) .step1 = j.apply p r .step4 (j.workAt p r .step4) := by
  simp only [Job.workAt, List.range_succ, List.foldl_append]
  rfl

theorem advance_of_next {p : Params} {r : Running} {pos : Position} (h : r.pos.next = some pos) :
    r.advance p = { r with work := r.job.apply p r.round r.pos r.work, pos := pos } := by
  simp [Running.advance, h]

theorem advance_of_step4 {p : Params} {r : Running} (h : r.pos = .step4) :
    r.advance p =
      { r with work := r.job.apply p r.round .step4 r.work, round := r.round + 1, pos := .step1 } := by
  simp [Running.advance, Position.next, h]

/-- One step of a round takes the exact partial result to the next one. -/
theorem Running.Exact.advance {r : Running} {s : State} (h : r.Exact s) (hround : r.round < r.job.rounds) :
    (r.advance s.cfg).Exact s := by
  cases hnext : r.pos.next with
  | some pos =>
    rw [advance_of_next hnext]
    exact ⟨h.current, by rw [workAt_next hnext, ← h.work], .inl hround⟩
  | none =>
    have hpos : r.pos = .step4 := by revert hnext; cases r.pos <;> simp [Position.next]
    rw [advance_of_step4 hpos]
    refine ⟨h.current, ?_, ?_⟩
    · rw [workAt_succ, h.work, hpos]
    · simp only [and_true]
      omega

theorem Running.Exact.length_output_le_lMax {r : Running} {s : State} (h : r.Exact s) :
    r.output.length ≤ s.cfg.lMax :=
  calc r.output.length ≤ r.work.length := length_output_le r
    _ = (r.job.initial s.cfg).length := by rw [h.work, length_workAt]
    _ ≤ s.cfg.lMax := length_initial_le_lMax h.current

theorem Running.Exact.commit_legalMemory {r : Running} {s : State} (h : r.Exact s) (hmem : s.LegalMemory) :
    (s.commit r).LegalMemory := by
  have hput := putVec_legalMemory hmem (b := r.job.outputBuffer) (start := 0) (v := r.output) <| by
    rw [Nat.zero_add]
    exact h.length_output_le_lMax.trans (lMax_le_bits_outputBuffer s.cfg r.job)
  rw [State.LegalMemory, commit_mem, State.commit_cfg]
  exact hput

/-! ### The invariant, kept by each kind of event -/

theorem State.inv_iff {s : State} :
    s.Inv ↔ s.status.Legal s.busy ∧ s.LegalResults ∧ s.LegalMemory ∧ ∀ r, s.phase = .running r → r.Exact s := by
  constructor
  · intro h
    exact ⟨⟨h.errIff, h.ecodeLe, h.errDone, h.busyNotDone⟩, ⟨h.resSelLt, h.resLevelLe⟩,
      ⟨h.memWf, h.memWithin⟩, fun r hr => ⟨h.jobCurrent r hr, h.workExact r hr, h.roundLe r hr⟩⟩
  · rintro ⟨hst, ⟨hsel, hlevel⟩, ⟨hwf, hwithin⟩, hrun⟩
    exact ⟨hst.errIff, hst.ecodeLe, hst.errDone, hst.busyNotDone, hsel, hlevel, hwf, hwithin,
      fun r hr => (hrun r hr).current, fun r hr => (hrun r hr).work, fun r hr => (hrun r hr).round⟩

/-- An idle state has no sequencer to speak of. -/
theorem State.inv_of_idle {s : State} (hidle : s.phase = .idle) (hst : s.status.Legal false)
    (hres : s.LegalResults) (hmem : s.LegalMemory) : s.Inv :=
  State.inv_iff.mpr ⟨s.busy_of_idle hidle ▸ hst, hres, hmem, fun _ hr => by simp [hidle] at hr⟩

theorem State.Inv.withInbox {s : State} (h : s.Inv) (es : List Event) : (s.withInbox es).Inv := by
  obtain ⟨hst, hres, hmem, hrun⟩ := State.inv_iff.mp h
  exact State.inv_iff.mpr ⟨hst, hres, hmem, fun r hr => (hrun r hr).frame s.status s.phase es s.returned s.draws⟩

theorem State.Inv.answer {s : State} (h : s.Inv) (w : Word) : (s.answer w).Inv := by
  obtain ⟨hst, hres, hmem, hrun⟩ := State.inv_iff.mp h
  exact State.inv_iff.mpr ⟨hst, hres, hmem,
    fun r hr => (hrun r hr).frame s.status s.phase s.inbox (w :: s.returned) (s.draws + 1)⟩

theorem State.Inv.dropWrite {s : State} (h : s.Inv) : s.dropWrite.Inv := by
  obtain ⟨hst, hres, hmem, hrun⟩ := State.inv_iff.mp h
  exact State.inv_iff.mpr ⟨hst.overrun, hres, hmem,
    fun r hr => (hrun r hr).frame s.status.overrun s.phase s.inbox s.returned s.draws⟩

theorem State.Inv.reject {s : State} (h : s.Inv) (hidle : s.phase = .idle) (e : ErrorCode) : (s.reject e).Inv := by
  obtain ⟨-, hres, hmem, -⟩ := State.inv_iff.mp h
  exact State.inv_of_idle hidle (Status.legal_rejected e) hres hmem

theorem State.Inv.accept {s : State} (h : s.Inv) {j : Job} (hj : j.current s) :
    (s.accept ⟨j, j.initial s.cfg, 0, .step1⟩).Inv := by
  obtain ⟨-, hres, hmem, -⟩ := State.inv_iff.mp h
  refine State.inv_iff.mpr ⟨Status.legal_clear _, hres, hmem, fun r hr => ?_⟩
  cases hr
  exact (exact_initial hj).frame Status.clear _ s.inbox s.returned s.draws

theorem State.Inv.writeReg {s : State} (h : s.Inv) (hidle : s.phase = .idle) (r : RegName) (w : Word) :
    (s.writeReg r w).Inv := by
  obtain ⟨hst, hres, hmem, -⟩ := State.inv_iff.mp h
  rw [s.busy_of_idle hidle] at hst
  refine State.inv_of_idle ((s.writeReg_phase r w).trans hidle) ((s.writeReg_status r w).symm ▸ hst) ?_ ?_
  · simpa [State.LegalResults] using hres
  · simpa [State.LegalMemory] using hmem

theorem State.Inv.writeWord {s : State} (h : s.Inv) (hidle : s.phase = .idle) {b : BufferName} {k : Nat} (w : Word)
    (hk : k < b.words s.cfg) : (s.writeWord b k w).Inv := by
  obtain ⟨hst, hres, hmem, -⟩ := State.inv_iff.mp h
  rw [s.busy_of_idle hidle] at hst
  exact State.inv_of_idle hidle hst hres (writeWord_legalMemory hmem w hk)

theorem State.Inv.hostAccess {s u : State} {a : Access} (h : s.Inv) (ha : hostAccess s a = .next u) : u.Inv := by
  obtain ⟨w, rfl⟩ | ⟨-, rfl⟩ | ⟨hidle, e, rfl⟩ | ⟨-, j, hj, rfl⟩ | ⟨hidle, r, w, rfl⟩ | ⟨hidle, b, k, w, hk, rfl⟩ :=
    hostAccess_cases ha
  · exact h.answer w
  · exact h.dropWrite
  · exact h.reject hidle e
  · exact h.accept hj
  · exact h.writeReg hidle r w
  · exact h.writeWord hidle w hk

theorem State.Inv.complete {s : State} (h : s.Inv) {r : Running} (hr : s.phase = .running r) :
    (s.complete r).Inv := by
  obtain ⟨hst, hres, hmem, hrun⟩ := State.inv_iff.mp h
  exact State.inv_of_idle rfl hst.completed (hres.commit r) ((hrun r hr).commit_legalMemory hmem)

theorem State.Inv.engineTurn {s : State} (h : s.Inv) : s.engineTurn.Inv := by
  obtain ⟨-, hturn⟩ | ⟨r, hr, hround, hturn⟩ | ⟨r, hr, -, hturn⟩ := engineTurn_cases s <;> rw [hturn]
  · exact h
  · obtain ⟨hst, hres, hmem, hrun⟩ := State.inv_iff.mp h
    rw [s.busy_of_running hr] at hst
    refine State.inv_iff.mpr ⟨hst, hres, hmem, fun r' hr' => ?_⟩
    cases hr'
    exact ((hrun r hr).advance hround).frame s.status _ s.inbox s.returned s.draws
  · exact h.complete hr

/-- Reset meets the invariant whatever the state was. Depends on N_SEL not being 0 (R7). -/
theorem applyReset_inv (s : State) : s.applyReset.Inv :=
  State.inv_of_idle rfl (Status.legal_clear false) (show State.reset.LegalResults from ⟨by decide, by decide⟩)
    ⟨reset_mem_wf, nofun, nofun, nofun⟩

/-- Settles O31: State.reset is the reset of itself. -/
theorem resetMeetsTheInvariant : Obligations.ResetMeetsTheInvariant :=
  show State.reset.Inv from applyReset_reset ▸ applyReset_inv State.reset

/-- Settles O30: a step is a turn of the engine, a reset or a host access, and each of them keeps the invariant. -/
theorem everyStepKeepsTheInvariant : Obligations.EveryStepKeepsTheInvariant := by
  intro s t h hstep
  obtain ⟨-, rfl⟩ | ⟨es, -, rfl⟩ | ⟨es, -, rfl⟩ | ⟨a, es, -, ha⟩ := step_next hstep
  · exact h.engineTurn
  · exact (h.withInbox es).engineTurn
  · exact applyReset_inv (s.withInbox es)
  · exact (h.withInbox es).hostAccess ha

end Sys2Proof.Machine
end

section
/-!
PROOFS. The address map (spec/20_memory.md R71, R74, R76, R78): the decoder is its inverse, and which accesses it
rejects.
-/

namespace Sys2Proof

/-! ### The address map (R71, R76) -/

/-- A buffer's words fit its window of 4 KiB. Depends on KEY_FACTOR being at most 4 (R7). -/
theorem four_mul_words_le (p : Params) (b : BufferName) : 4 * b.words p ≤ 0x1000 := by
  obtain ⟨⟨-, hle⟩, -⟩ := p.ok
  have hmax : p.sMax ≤ 8192 := hle
  cases b <;> simp only [BufferName.words, Params.lMax, ceilDiv, Config.wordBits, Config.keyFactor] <;> omega

/-- The engine has the target: every register, and the words of each buffer (R71). -/
def Target.Present (p : Params) : Target → Prop
  | .reg _    => True
  | .word b w => w < b.words p

/-- Depends on KEY_FACTOR being at most 4 (R7). -/
theorem Target.offset_lt {p : Params} {t : Target} (h : t.Present p) : t.offset < 2 ^ 14 := by
  cases t with
  | reg r => cases r <;> decide
  | word b w =>
    have hw : w < b.words p := h
    have hfits := four_mul_words_le p b
    cases b <;> simp only [Target.offset, BufferName.base] <;> omega

/-- An offset lies below the buffers, or in the window of one of them. -/
theorem below_seedBuf_or_in_window (off : BitVec 14) :
    off.toNat < BufferName.seedBuf.base ∨ ∃ b : BufferName, b.base ≤ off.toNat ∧ off.toNat < b.base + 0x1000 := by
  have hblock := off.isLt
  by_cases hseed : off.toNat < 0x1000
  · exact .inl hseed
  · by_cases hkey : off.toNat < 0x2000
    · exact .inr ⟨.seedBuf, by simp only [BufferName.base]; omega⟩
    · by_cases hdata : off.toNat < 0x3000
      · exact .inr ⟨.keyBuf, by simp only [BufferName.base]; omega⟩
      · exact .inr ⟨.dataBuf, by simp only [BufferName.base]; omega⟩

theorem decodeOffset_of_below_seedBuf (p : Params) {off : BitVec 14} (h : off.toNat < BufferName.seedBuf.base) :
    decodeOffset p off = (RegName.all.find? (fun r => r.offset = off.toNat)).map .reg := if_pos h

theorem decodeOffset_of_in_window (p : Params) {b : BufferName} {off : BitVec 14} (hlo : b.base ≤ off.toNat)
    (hhi : off.toNat < b.base + 0x1000) : decodeOffset p off = decodeWindow p b off.toNat := by
  cases b with
  | seedBuf => exact (if_neg (Nat.not_lt.mpr hlo)).trans (if_pos hhi)
  | keyBuf =>
    have hseed : BufferName.seedBuf.base ≤ off.toNat := le_trans (by decide) hlo
    exact (if_neg (Nat.not_lt.mpr hseed)).trans ((if_neg (Nat.not_lt.mpr hlo)).trans (if_pos hhi))
  | dataBuf =>
    have hkey : BufferName.keyBuf.base ≤ off.toNat := le_trans (by decide) hlo
    have hseed : BufferName.seedBuf.base ≤ off.toNat := le_trans (by decide) hkey
    exact (if_neg (Nat.not_lt.mpr hseed)).trans
      ((if_neg (Nat.not_lt.mpr hkey)).trans (if_neg (Nat.not_lt.mpr hlo)))

theorem decodeOffset_reg_offset (p : Params) (r : RegName) :
    decodeOffset p (BitVec.ofNat 14 r.offset) = some (.reg r) := by cases r <;> rfl

/-- Depends on KEY_FACTOR being at most 4 (R7). -/
theorem decodeOffset_word_offset {p : Params} {b : BufferName} {w : Nat} (h : w < b.words p) :
    decodeOffset p (BitVec.ofNat 14 (Target.word b w).offset) = some (.word b w) := by
  have hfits := four_mul_words_le p b
  have hoff : (BitVec.ofNat 14 (Target.word b w).offset).toNat = b.base + 4 * w :=
    Nat.mod_eq_of_lt (Target.offset_lt (p := p) (t := .word b w) h)
  have haligned : (b.base + 4 * w) % 4 = 0 := by cases b <;> simp only [BufferName.base] <;> omega
  rw [decodeOffset_of_in_window p (b := b) (by omega) (by omega), hoff]
  simp [decodeWindow, haligned, h]

theorem offset_of_decodeWindow {p : Params} {b : BufferName} {a : Nat} {t : Target} (hlo : b.base ≤ a)
    (h : decodeWindow p b a = some t) : a = t.offset ∧ t.Present p := by
  dsimp only [decodeWindow] at h
  split at h
  next hw =>
    cases h
    obtain ⟨haligned, hlt⟩ := hw
    refine ⟨?_, hlt⟩
    cases b <;> simp only [Target.offset, BufferName.base] at hlo ⊢ <;> omega
  next => cases h

theorem offset_of_decodeOffset {p : Params} {off : BitVec 14} {t : Target} (h : decodeOffset p off = some t) :
    off.toNat = t.offset ∧ t.Present p := by
  obtain hbelow | ⟨b, hlo, hhi⟩ := below_seedBuf_or_in_window off
  · rw [decodeOffset_of_below_seedBuf p hbelow, Option.map_eq_some_iff] at h
    obtain ⟨r, hr, rfl⟩ := h
    have hoff : r.offset = off.toNat := by simpa using List.find?_some hr
    exact ⟨hoff.symm, trivial⟩
  · exact offset_of_decodeWindow hlo (decodeOffset_of_in_window p hlo hhi ▸ h)

theorem eq_ofNat_of_decodeOffset {p : Params} {off : BitVec 14} {t : Target} (h : decodeOffset p off = some t) :
    off = BitVec.ofNat 14 t.offset := by
  rw [← (offset_of_decodeOffset h).1, BitVec.ofNat_toNat, BitVec.setWidth_eq]

/-- Settles O3: the decoder is the inverse of the map, read in both directions. -/
theorem addressMapNamesEveryOffsetOnce : Obligations.AddressMapNamesEveryOffsetOnce := by
  intro p
  refine ⟨decodeOffset_reg_offset p, fun b w h => ⟨?_, decodeOffset_word_offset h⟩, fun off t h => ?_⟩
  · exact Target.offset_lt (p := p) (t := .word b w) h
  · obtain ⟨hoff, hpresent⟩ := offset_of_decodeOffset h
    exact ⟨hoff, fun b w ht => by subst ht; exact hpresent⟩

/-! ### The accesses the map rejects (R71, R74, R75, R78) -/

/-- The reserved ranges of R71. -/
def ReservedOffset (p : Params) (a : Nat) : Prop :=
  (0x002C ≤ a ∧ a ≤ 0x0FFF) ∨
  (0x1000 + 4 * ((p.sMax + 31) / 32) ≤ a ∧ a ≤ 0x1FFF) ∨
  (0x2000 + 4 * ((4 * p.sMax + 31) / 32) ≤ a ∧ a ≤ 0x2FFF) ∨
  0x3000 + 4 * ((4 * p.sMax + 31) / 32) ≤ a

theorem decodeWindow_eq_none_iff (p : Params) (b : BufferName) {a : Nat} (haligned : a % 4 = 0)
    (hlo : b.base ≤ a) : decodeWindow p b a = none ↔ b.base + 4 * b.words p ≤ a := by
  have hindex : (a - b.base) / 4 < b.words p ↔ a < b.base + 4 * b.words p := by
    cases b <;> simp only [BufferName.base] at hlo ⊢ <;> omega
  simp [decodeWindow, haligned, hindex]

theorem RegName.mem_all (r : RegName) : r ∈ RegName.all := by cases r <;> decide

/-- The registers stand at the multiples of 4 below 0x002C. -/
theorem exists_offset_iff {a : Nat} (haligned : a % 4 = 0) : (∃ r : RegName, r.offset = a) ↔ a < 0x002C := by
  constructor
  · rintro ⟨r, rfl⟩
    cases r <;> decide
  · intro h
    have hall : ∀ a < 0x002C, a % 4 = 0 → ∃ r ∈ RegName.all, r.offset = a := by decide
    obtain ⟨r, -, hr⟩ := hall a h haligned
    exact ⟨r, hr⟩

/-- At a multiple of 4, nothing is decoded exactly in the reserved ranges. Depends on KEY_FACTOR and the word width
(R7). -/
theorem decodeOffset_eq_none_iff (p : Params) {off : BitVec 14} (haligned : off.toNat % 4 = 0) :
    decodeOffset p off = none ↔ ReservedOffset p off.toNat := by
  have hblock := off.isLt
  obtain hbelow | ⟨b, hlo, hhi⟩ := below_seedBuf_or_in_window off
  · have hregisters : decodeOffset p off = none ↔ ¬ ∃ r : RegName, r.offset = off.toNat := by
      simp [decodeOffset_of_below_seedBuf p hbelow, RegName.mem_all]
    rw [hregisters, exists_offset_iff haligned]
    simp only [BufferName.base] at hbelow
    simp only [ReservedOffset]
    omega
  · rw [decodeOffset_of_in_window p hlo hhi, decodeWindow_eq_none_iff p b haligned hlo]
    cases b <;>
      simp only [BufferName.base, BufferName.words, Params.lMax, ceilDiv, Config.wordBits, Config.keyFactor,
        ReservedOffset] at hlo hhi ⊢ <;> omega

/-- The offsets of the registers that R71 lets the host only read. -/
abbrev ReadOnlyOffset (off : BitVec 14) : Prop :=
  off = 0x000#14 ∨ off = 0x004#14 ∨ off = 0x00C#14 ∨ off = 0x024#14 ∨ off = 0x028#14

theorem RegName.writable_eq_false_iff (r : RegName) :
    r.writable = false ↔ ReadOnlyOffset (BitVec.ofNat 14 r.offset) := by cases r <;> decide

theorem decodes_to_not_writable_iff (p : Params) (off : BitVec 14) :
    (∃ t, decodeOffset p off = some t ∧ t.writable = false) ↔ ReadOnlyOffset off := by
  constructor
  · rintro ⟨t, ht, hw⟩
    rw [eq_ofNat_of_decodeOffset ht]
    cases t with
    | reg r => exact r.writable_eq_false_iff.mp hw
    | word b w => cases hw
  · rintro (rfl | rfl | rfl | rfl | rfl)
    · exact ⟨_, decodeOffset_reg_offset p .param0, rfl⟩
    · exact ⟨_, decodeOffset_reg_offset p .param1, rfl⟩
    · exact ⟨_, decodeOffset_reg_offset p .status, rfl⟩
    · exact ⟨_, decodeOffset_reg_offset p .resSel, rfl⟩
    · exact ⟨_, decodeOffset_reg_offset p .resLevel, rfl⟩

end Sys2Proof

namespace Sys2Proof.Machine

theorem accessTarget_of_not_wf {p : Params} {a : Access} (h : ¬ a.wf) : accessTarget p a = none := if_neg h

theorem accessTarget_of_wf {p : Params} {a : Access} (h : a.wf) :
    accessTarget p a = (decodeOffset p a.off).filter (fun t => t.permits a.dir) := if_pos h

theorem permits_eq_false_iff {t : Target} {d : Direction} :
    t.permits d = false ↔ d = .write ∧ t.writable = false := by
  cases d <;> simp [Target.permits]

/-- Of the accesses with the shape of R74, the map rejects the reserved ranges and the writes of read-only registers. -/
theorem accessTarget_eq_none_iff {p : Params} {a : Access} (h : a.wf) :
    accessTarget p a = none ↔ ReservedOffset p a.off.toNat ∨ (a.dir = .write ∧ ReadOnlyOffset a.off) := by
  have hfilter : (decodeOffset p a.off).filter (fun t => t.permits a.dir) = none ↔
      decodeOffset p a.off = none ∨
        (a.dir = .write ∧ ∃ t, decodeOffset p a.off = some t ∧ t.writable = false) := by
    cases decodeOffset p a.off <;> simp [permits_eq_false_iff]
  rw [accessTarget_of_wf h, hfilter, decodes_to_not_writable_iff]
  obtain ⟨-, -, haligned⟩ := h
  rw [decodeOffset_eq_none_iff p haligned]

end Sys2Proof.Machine
end

section
/-!
PROOFS. The host port (spec/20_memory.md R72, R73, R75): when an access ends in BUS_ERROR, what a host read returns, what
a host write of a buffer word stores, and the issue of a command by a write of CMD.
-/

namespace Sys2Proof.Machine

/-! ### A bus error comes from a rejected access only (R75, R249) -/

theorem vec_error {m : Memory} {n : BufferName} {L : Nat} {f : Fault} (h : m.vec n L = .error f) :
    ∃ j, f = .undefinedOperand n j := by
  unfold Memory.vec at h
  split at h
  next j _ => cases h; exact ⟨j, rfl⟩
  next => cases h

theorem deriveOperands_error {s : State} {f : Fault} (h : s.deriveOperands = .error f) :
    ∃ b j, f = .undefinedOperand b j := by
  unfold State.deriveOperands at h
  split at h
  next hv => cases h; exact ⟨_, vec_error hv⟩
  next => cases h

theorem transformOperands_error {s : State} {f : Fault} (h : s.transformOperands = .error f) :
    ∃ b j, f = .undefinedOperand b j := by
  unfold State.transformOperands at h
  split at h
  next hkey => cases h; exact ⟨_, vec_error hkey⟩
  next =>
    split at h
    next htext => cases h; exact ⟨_, vec_error htext⟩
    next => cases h

/-- A command's issue faults only where its operands do. -/
theorem operands_error_of_issue_fault {α : Type} {s : State} {check : Option ErrorCode} {ops : Except Fault α}
    {start : α → Running} {f : Fault} (h : issue s check (ops.map start) = .fault f) : ops = .error f := by
  unfold issue at h
  split at h
  · cases h
  split at h
  · cases h
  cases ops with
  | error e => cases h; rfl
  | ok o => cases h

/-- The only fault of a command is UNDEFINED_OPERAND (R248). -/
theorem exec_fault {i : Instr} {s : State} {f : Fault} (h : exec i s = .fault f) :
    ∃ b j, f = .undefinedOperand b j := by
  cases i with
  | derive => exact deriveOperands_error (operands_error_of_issue_fault h)
  | encrypt => exact transformOperands_error (operands_error_of_issue_fault h)
  | decrypt => exact transformOperands_error (operands_error_of_issue_fault h)

theorem issueWord_fault {s : State} {w : Word} {f : Fault} (h : issueWord s w = .fault f) :
    ∃ b j, f = .undefinedOperand b j := by
  unfold issueWord at h
  split at h
  next => exact exec_fault h
  next => split at h <;> cases h

theorem hostWrite_fault {s : State} {t : Target} {w : Word} {f : Fault} (h : hostWrite s t w = .fault f) :
    ∃ b j, f = .undefinedOperand b j := by
  unfold hostWrite at h
  split at h
  · cases h
  split at h
  next => exact issueWord_fault h
  next => cases h
  next => cases h

theorem hostAccess_eq_busError_iff {s : State} {a : Access} :
    hostAccess s a = .fault (.busError a.off a.dir) ↔ accessTarget s.cfg a = none := by
  refine ⟨fun h => ?_, hostAccess_fault_of_none⟩
  cases ht : accessTarget s.cfg a with
  | none => rfl
  | some t =>
    cases hd : a.dir with
    | read => rw [hostAccess_read ht hd] at h; cases h
    | write =>
      rw [hostAccess_write ht hd] at h
      obtain ⟨b, j, hf⟩ := hostWrite_fault h
      cases hf

/-- Settles O22: no write faults with BUS_ERROR, so the access is one the map rejects, by its shape, its range or its
direction. -/
theorem busErrorExactlyOnRejectedAccess : Obligations.BusErrorExactlyOnRejectedAccess := by
  intro s a
  rw [hostAccess_eq_busError_iff]
  by_cases hwf : a.wf
  · rw [accessTarget_eq_none_iff hwf]
    obtain ⟨hsize, hlanes, haligned⟩ := hwf
    simp [hsize, hlanes, haligned, ReservedOffset, or_assoc]
  · refine iff_of_true (accessTarget_of_not_wf hwf) ?_
    rw [Access.wf] at hwf
    tauto

/-! ### What a host read returns (R72) -/

theorem readsWhileBusy_iff (r : RegName) :
    r.readsWhileBusy = true ↔ r = .param0 ∨ r = .param1 ∨ r = .cmd ∨ r = .status := by cases r <;> decide

theorem readTarget_reg_of_readsWhileBusy (s : State) {r : RegName} (h : r.readsWhileBusy = true) :
    s.readTarget (.reg r) = s.regValue r := by
  simp [State.readTarget, h]

theorem readTarget_reg_of_idle {s : State} (h : s.busy = false) (r : RegName) :
    s.readTarget (.reg r) = s.regValue r := by
  simp [State.readTarget, h]

theorem readTarget_word_of_idle {s : State} (h : s.busy = false) (b : BufferName) (k : Nat) :
    s.readTarget (.word b k) = Buffer.readWord (s.mem.get b) k (Config.draw s.draws) := by
  simp [State.readTarget, h]

theorem readTarget_of_busy {s : State} (h : s.busy = true) {t : Target}
    (ht : ∀ r, t = .reg r → r.readsWhileBusy = false) : s.readTarget t = Config.draw s.draws := by
  cases t with
  | reg r => simp [State.readTarget, h, ht r rfl]
  | word b k => simp [State.readTarget, h]

theorem toNat_param0 (p : Params) : (param0 p).toNat = p.sMax := by
  obtain ⟨⟨-, hle⟩, -⟩ := p.ok
  have hmax : p.sMax ≤ 8192 := hle
  rw [param0_eq_ofNat_sMax]
  exact Nat.mod_eq_of_lt (by omega)

/-- The bits of the STATUS word (R34). -/
theorem getLsbD_statusWord (st : Status) (busy : Bool) (i : Nat) :
    (st.word busy).getLsbD i =
      if i = 0 then busy else if i = 1 then st.done else if i = 2 then st.err else if i = 3 then st.ovr
        else st.ecode.getLsbD (i - 4) := by
  rw [Status.word, BitVec.getLsbD_cast, BitVec.getLsbD_append, BitVec.getLsbD_append, BitVec.getLsbD_append,
    BitVec.getLsbD_append, BitVec.getLsbD_append]
  match i with
  | 0 => simp
  | 1 => simp
  | 2 => simp
  | 3 => simp
  | i + 4 => simpa using BitVec.lt_of_getLsbD

theorem statusWord_fields (st : Status) (busy : Bool) :
    (st.word busy).getLsbD 0 = busy ∧ (st.word busy).getLsbD 1 = st.done ∧ (st.word busy).getLsbD 2 = st.err ∧
      (st.word busy).getLsbD 3 = st.ovr ∧ (st.word busy).extractLsb' 4 4 = st.ecode ∧
      (st.word busy).extractLsb' 8 24 = 0#24 := by
  refine ⟨getLsbD_statusWord st busy 0, getLsbD_statusWord st busy 1, getLsbD_statusWord st busy 2,
    getLsbD_statusWord st busy 3, ?_, ?_⟩
  · refine BitVec.eq_of_getLsbD_eq fun i hi => ?_
    rw [BitVec.getLsbD_extractLsb', getLsbD_statusWord, Nat.add_comm]
    simp [hi]
  · refine BitVec.eq_of_getLsbD_eq fun i hi => ?_
    rw [BitVec.getLsbD_extractLsb', getLsbD_statusWord, Nat.add_comm]
    simp

/-- Element `t` of a word's elements is bit 31 - t (R76). -/
theorem getElem?_wordElements (w : Word) {t : Nat} (h : t < 32) :
    (wordElements w)[t]? = some (w.getLsbD (31 - t)) := by
  have ht : t < (bitsK 32 w.toNat).length := by rwa [length_bitsK]
  exact (List.getElem?_eq_getElem ht).trans (congrArg some (getElem_bitsK_testBit 32 w.toNat t ht))

theorem wordElements_wordOfElements {v : Bits} (h : v.length = 32) : wordElements (wordOfElements v) = v := by
  have hval := h ▸ val_lt_two_pow_length v
  have hbits := h ▸ bitsK_length_val v
  rw [wordElements, wordOfElements, BitVec.toNat_ofNat, Nat.mod_eq_of_lt hval]
  exact hbits

theorem getElem?_eq_getLsbD_wordOfElements {v : Bits} (hv : v.length = 32) {t : Nat} (h : t < 32) :
    v[t]? = some ((wordOfElements v).getLsbD (31 - t)) := by
  rw [← getElem?_wordElements _ h, wordElements_wordOfElements hv]

/-- A ⊥ element reads as its bit of the draw (R72 step 5). -/
theorem getLsbD_readWord (b : Buffer) (k : Nat) (d : Word) {i : Nat} (h : i < 32) :
    (Buffer.readWord b k d).getLsbD (31 - i) = (Buffer.bit b (32 * k + i)).getD (d.getLsbD (31 - i)) := by
  have hmsb : d.getMsbD i = d.getLsbD (31 - i) := by simp [BitVec.getMsbD, h]
  rw [← Option.some_inj, Buffer.readWord, ← getElem?_eq_getLsbD_wordOfElements (by simp [Config.wordBits]) h]
  simp [Config.wordBits, h, hmsb]

/-- Settles O23: the word is State.readTarget's, read off for each target, and State.answer is the frame. -/
theorem hostReadReturnsAndChangesNothing : Obligations.HostReadReturnsAndChangesNothing := by
  intro s a hdir
  refine ⟨fun hnone => hdir ▸ hostAccess_fault_of_none hnone,
    fun t ht => ⟨s.readTarget t, hostAccess_read ht hdir, ?_, ?_, ?_, ?_, ?_,
      fun hidle => ⟨?_, ?_, ?_, ?_, ?_, ?_, ?_, ?_⟩⟩⟩
  · rintro rfl
    rw [readTarget_reg_of_readsWhileBusy s rfl]
    exact toNat_param0 s.cfg
  · rintro rfl
    exact readTarget_reg_of_readsWhileBusy s rfl
  · rintro rfl
    exact readTarget_reg_of_readsWhileBusy s rfl
  · rintro rfl
    rw [readTarget_reg_of_readsWhileBusy s rfl]
    exact statusWord_fields s.status s.busy
  · intro hbusy h0 h1 hcmd hstatus
    refine readTarget_of_busy hbusy fun r hr => ?_
    subst hr
    refine Bool.eq_false_iff.mpr fun hreads => ?_
    obtain rfl | rfl | rfl | rfl := (readsWhileBusy_iff r).mp hreads <;> contradiction
  · rintro rfl; exact readTarget_reg_of_idle hidle .seedLen
  · rintro rfl; exact readTarget_reg_of_idle hidle .selector
  · rintro rfl; exact readTarget_reg_of_idle hidle .level
  · rintro rfl; exact readTarget_reg_of_idle hidle .keyLen
  · rintro rfl; exact readTarget_reg_of_idle hidle .dataLen
  · rintro rfl
    rw [readTarget_reg_of_idle hidle]
    exact BitVec.toNat_setWidth_of_le (by decide)
  · rintro rfl
    rw [readTarget_reg_of_idle hidle]
    exact BitVec.toNat_setWidth_of_le (by decide)
  · rintro b k rfl i hi
    rw [readTarget_word_of_idle hidle]
    exact getLsbD_readWord (s.mem.get b) k (Config.draw s.draws) hi

/-! ### A buffer word written (R73 step 5, R76) -/

theorem hostWrite_word_of_idle {s : State} (h : s.phase = .idle) (b : BufferName) (k : Nat) (w : Word) :
    hostWrite s (.word b k) w = .next (s.writeWord b k w) := by
  simp [hostWrite, s.busy_of_idle h]

theorem bit_writeWord (b : Buffer) (k : Nat) (w : Word) (j : Nat) :
    Buffer.bit (Buffer.writeWord b k w) j =
      if 32 * k ≤ j ∧ j < 32 * k + 32 then some (w.getLsbD (31 - (j - 32 * k))) else Buffer.bit b j := by
  rw [Buffer.writeWord, bit_putVec, length_wordElements, Config.wordBits]
  split
  next h => exact getElem?_wordElements w (by omega)
  next => rfl

theorem element_writeWord (s : State) (b : BufferName) (k : Nat) (w : Word) (c : BufferName) (j : Nat) :
    (s.writeWord b k w).element c j =
      if c = b ∧ 32 * k ≤ j ∧ j < 32 * k + 32 then some (w.getLsbD (31 - (j - 32 * k))) else s.element c j := by
  rw [State.element, State.writeWord_mem, Memory.get_set]
  by_cases hc : c = b
  · subst hc; simp [bit_writeWord, State.element]
  · simp [hc, State.element]

/-- Settles O24: State.writeWord stores the word, and its elements are read back one by one. -/
theorem hostWriteStoresTheBufferWord : Obligations.HostWriteStoresTheBufferWord := by
  intro s a b k hidle hdir ht
  refine ⟨s.writeWord b k a.data, (hostAccess_write ht hdir).trans (hostWrite_word_of_idle hidle b k a.data),
    fun i hi => ?_, fun j hj => ?_, fun c hc j => ?_, rfl⟩
  · rw [element_writeWord, if_pos ⟨rfl, by omega⟩, Nat.add_sub_cancel_left]
  · rw [element_writeWord, if_neg (by omega)]
  · rw [element_writeWord, if_neg (fun h => hc h.1)]

/-! ### A command issued by a write of CMD (R73 step 3, R104, R280) -/

theorem decode_encode (i : Instr) : decode (encode i) = .command i := by cases i <;> rfl

theorem issueWord_of_decode {s : State} {w : Word} {i : Instr} (h : decode w = .command i) :
    issueWord s w = exec i s := by simp [issueWord, h]

theorem exec_busy {s : State} (h : s.busy = true) (i : Instr) : exec i s = .next s.dropWrite := by
  cases i <;> exact issue_busy h _ _

/-- A write of CMD while BUSY is dropped like any other, which is what the issue of its word answers then. -/
theorem hostWrite_cmd (s : State) (w : Word) : hostWrite s (.reg .cmd) w = issueWord s w := by
  by_cases hb : s.busy = true
  · rw [hostWrite_busy hb]
    unfold issueWord
    split
    · exact (exec_busy hb _).symm
    · simp [hb]
  · simp [hostWrite, hb]

theorem hostAccess_cmdWrite (s : State) (w : Word) : hostAccess s (cmdWrite w) = issueWord s w :=
  have haligned : (BitVec.ofNat 14 RegName.cmd.offset).toNat % 4 = 0 := by decide
  have ht : accessTarget s.cfg (cmdWrite w) = some (.reg .cmd) :=
    (accessTarget_of_wf ⟨rfl, rfl, haligned⟩).trans
      (congrArg (Option.filter (Target.permits · .write)) (decodeOffset_reg_offset s.cfg .cmd))
  (hostAccess_write ht rfl).trans (hostWrite_cmd s w)

theorem step_of_cmdWrite {s : State} {es : List Event} {w : Word} {i : Instr}
    (hinbox : s.inbox = .access (cmdWrite w) :: es) (hdecode : decode w = .command i) :
    step s = exec i (s.withInbox es) :=
  calc step s = hostAccess (s.withInbox es) (cmdWrite w) := step_cons hinbox
    _ = issueWord (s.withInbox es) w := hostAccess_cmdWrite _ w
    _ = exec i (s.withInbox es) := issueWord_of_decode hdecode

/-- Settles O5: a write of CMD issues its word whatever BUSY is, and withFetchWord places such a write first. -/
theorem stepExecutesTheDecodedCommand : Obligations.StepExecutesTheDecodedCommand := by
  refine ⟨fun s es w i => step_of_cmdWrite, fun s i => ?_⟩
  have hdecode : decode (BitVec.ofNat 32 ((encode i).toNat % 2 ^ 32)) = .command i := by
    rw [Nat.mod_eq_of_lt (encode i).isLt, BitVec.ofNat_toNat, BitVec.setWidth_eq, decode_encode]
  exact step_of_cmdWrite (s := s.withFetchWord 32 (encode i).toNat) rfl hdecode

end Sys2Proof.Machine
end

section
/-!
PROOFS. The command word (spec/30_encoding.md R104 to R107) and its issue while the engine is idle (R102, R106;
spec/70_reset_and_hazards.md R280, R281): the rejection of an illegal word and the acceptance of the three commands.
-/

namespace Sys2Proof.Machine

/-! ### The command word (R104 to R107) -/

theorem eq_encode_of_decode {w : Word} {i : Instr} (h : decode w = .command i) : w = encode i := by
  unfold decode at h
  split_ifs at h <;> cases h <;> assumption

theorem decode_eq_command_iff {w : Word} {i : Instr} : decode w = .command i ↔ w = encode i :=
  ⟨eq_encode_of_decode, fun h => h ▸ decode_encode i⟩

theorem decode_eq_illegalCommand_iff {w : Word} : decode w = .illegalCommand ↔ ∀ i, w ≠ encode i := by
  simp only [Ne, ← decode_eq_command_iff]
  cases decode w <;> simp

/-- Settles O1: the decoder inverts the encoder, whose three words are those of the rows. -/
theorem commandWordIsDecodedOnAll32Bits : Obligations.CommandWordIsDecodedOnAll32Bits := by
  refine fun w => ⟨decode_eq_command_iff, decode_eq_command_iff, decode_eq_command_iff,
    decode_eq_illegalCommand_iff.trans ⟨fun h => ⟨h .derive, h .encrypt, h .decrypt⟩, ?_⟩⟩
  rintro ⟨hderive, hencrypt, hdecrypt⟩ (_ | _ | _)
  · exact hderive
  · exact hencrypt
  · exact hdecrypt

theorem encode_fields (i : Instr) :
    (encode i).extractLsb' 4 28 = 0#28 ∧ (encode i).extractLsb' 0 4 = opcode i := by
  cases i with
  | derive => exact Laws.Encoding.derive.2
  | encrypt => exact Laws.Encoding.encrypt.2
  | decrypt => exact Laws.Encoding.decrypt.2

/-- Settles O2: each direction is one of the decoder's, and the fields are the encoder's. -/
theorem encodeAndDecodeAgree : Obligations.EncodeAndDecodeAgree :=
  ⟨fun i _ => ⟨decode_encode i, encode_fields i⟩, fun _ _ => eq_encode_of_decode⟩

/-! ### An illegal word (R106, R243) -/

theorem opcode_bounds (i : Instr) : opcode i ≠ 0x0#4 ∧ ¬ 0x4#4 ≤ opcode i := by cases i <;> decide

/-- No command's word has one of the field values R106 names. -/
theorem decode_eq_illegalCommand_of_fields {w : Word}
    (h : w.extractLsb' 4 28 ≠ 0#28 ∨ w.extractLsb' 0 4 = 0x0#4 ∨ 0x4#4 ≤ w.extractLsb' 0 4) :
    decode w = .illegalCommand := by
  refine decode_eq_illegalCommand_iff.mpr fun i hw => ?_
  subst hw
  obtain ⟨hrsv, hop⟩ := encode_fields i
  obtain ⟨hzero, hfour⟩ := opcode_bounds i
  rw [hrsv, hop] at h
  tauto

theorem issueWord_reject {s : State} {w : Word} (hdecode : decode w = .illegalCommand) (hbusy : s.busy = false) :
    issueWord s w = .next (s.reject .illegalCommand) := by simp [issueWord, hdecode, hbusy]

theorem statusWord_rejected_illegalCommand : (Status.rejected .illegalCommand).word false = 0x00000026#32 := by
  decide

/-- Settles O6: a word with these fields is no command's, so its issue is rejected. -/
theorem illegalCommandWordIsRejected : Obligations.IllegalCommandWordIsRejected := by
  intro s es w hidle hinbox hfields
  have hillegal := decode_eq_illegalCommand_of_fields hfields
  have hbusy : (s.withInbox es).busy = false := s.busy_of_idle hidle
  refine ⟨(s.withInbox es).reject .illegalCommand, ?_, rfl, ?_⟩
  · calc step s = hostAccess (s.withInbox es) (cmdWrite w) := step_cons hinbox
      _ = issueWord (s.withInbox es) w := hostAccess_cmdWrite _ w
      _ = .next ((s.withInbox es).reject .illegalCommand) := issueWord_reject hillegal hbusy
  · rw [State.regValue, State.reject_status, State.reject_busy, hbusy]
    exact statusWord_rejected_illegalCommand

/-! ### The acceptance of a command (R280, R281) -/

theorem deriveOperands_of_defined {s : State} (h : Buffer.defined s.mem.seedBuf (uint32 s.seedLen)) :
    s.deriveOperands = .ok s.deriveOps := by
  rw [State.deriveOperands, vec_of_defined (n := .seedBuf) h]
  rfl

theorem transformOperands_of_defined {s : State} (hkey : Buffer.defined s.mem.keyBuf (uint32 s.keyLen))
    (htext : Buffer.defined s.mem.dataBuf (uint32 s.keyLen)) : s.transformOperands = .ok s.transformOps := by
  rw [State.transformOperands, vec_of_defined (n := .keyBuf) hkey, vec_of_defined (n := .dataBuf) htext]
  rfl

/-- An idle engine accepts a command whose check passes and whose operands are defined. -/
theorem issue_of_operands {α : Type} {s : State} {check : Option ErrorCode} {ops : Except Fault α} {o : α}
    (hidle : s.phase = .idle) (hcheck : check = none) (hops : ops = .ok o) (start : α → Running) :
    issue s check (ops.map start) = .next (s.accept (start o)) := by
  subst hcheck hops
  exact issue_accept (s.busy_of_idle hidle) (start o)

/-- Settles O13: under its conditions DERIVE's check passes and its operands are those of R102. -/
theorem deriveIsAcceptedWithItsOperands : Obligations.DeriveIsAcceptedWithItsOperands := by
  rintro s ⟨hidle, hlen, hseed⟩
  exact issue_of_operands hidle (deriveCheck_eq_none_iff.mpr hlen) (deriveOperands_of_defined hseed) _

/-- Settles O14: under their conditions the two share a passing check and the operands of R102. -/
theorem transformsAreAcceptedWithTheirOperands : Obligations.TransformsAreAcceptedWithTheirOperands := by
  rintro s ⟨hidle, heq, hlen, hkey, htext⟩
  have hcheck : s.transformCheck = none := transformCheck_eq_none_iff.mpr ⟨hlen, heq ▸ hlen, by rw [heq]⟩
  have hops := transformOperands_of_defined hkey htext
  exact ⟨issue_of_operands hidle hcheck hops encryptStart, issue_of_operands hidle hcheck hops decryptStart⟩

end Sys2Proof.Machine
end

section
/-!
PROOFS. The host writes of the assembler (spec/30_encoding.md R110) while the engine is idle, and LOADV, which places a
literal and its length by them (R112).
-/

namespace Sys2Proof.Machine

/-! ### The writes a statement makes while idle (R110) -/

/-- Depends on KEY_FACTOR being at most 4 (R7). -/
theorem decodeOffset_offset {p : Params} {t : Target} (h : t.Present p) :
    decodeOffset p (BitVec.ofNat 14 t.offset) = some t := by
  cases t with
  | reg r => exact decodeOffset_reg_offset p r
  | word b w => exact decodeOffset_word_offset h

theorem offset_mod_four (t : Target) : t.offset % 4 = 0 := by
  cases t with
  | reg r => cases r <;> decide
  | word b w => cases b <;> simp only [Target.offset, BufferName.base] <;> omega

/-- Depends on KEY_FACTOR being at most 4 (R7). -/
theorem accessTarget_writeTarget {p : Params} {t : Target} (h : t.Present p) (hw : t.writable = true) (w : Word) :
    accessTarget p (writeTarget t w) = some t := by
  have haligned : (BitVec.ofNat 14 t.offset).toNat % 4 = 0 := by
    rw [BitVec.toNat_ofNat, Nat.mod_eq_of_lt (Target.offset_lt h), offset_mod_four]
  calc accessTarget p (writeTarget t w)
      = (decodeOffset p (BitVec.ofNat 14 t.offset)).filter (fun t => t.permits .write) :=
        accessTarget_of_wf ⟨rfl, rfl, haligned⟩
    _ = some t := by rw [decodeOffset_offset h, Option.filter_eq_some_iff]; exact ⟨rfl, hw⟩

theorem step_withInbox_cons (s : State) (e : Event) (es : List Event) :
    step (s.withInbox (e :: es)) = applyEvent (s.withInbox es) e := step_cons rfl

theorem step_of_writeTarget {s : State} {t : Target} (h : t.Present s.cfg) (hw : t.writable = true) (w : Word)
    (es : List Event) :
    step (s.withInbox (.access (writeTarget t w) :: es)) = hostWrite (s.withInbox es) t w :=
  (step_withInbox_cons s _ es).trans
    (hostAccess_write (s := s.withInbox es) (accessTarget_writeTarget h hw w) rfl)

theorem step_of_write_word {s : State} {b : BufferName} {k : Nat} (hidle : s.phase = .idle) (hk : k < b.words s.cfg)
    (w : Word) (es : List Event) :
    step (s.withInbox (.access (writeTarget (.word b k) w) :: es)) = .next ((s.writeWord b k w).withInbox es) :=
  (step_of_writeTarget (t := .word b k) hk rfl w es).trans
    (hostWrite_word_of_idle (s := s.withInbox es) hidle b k w)

theorem regValue_withInbox (s : State) (es : List Event) (r : RegName) :
    (s.withInbox es).regValue r = s.regValue r := by cases r <;> rfl

theorem writeReg_withInbox (s : State) (r : RegName) (w : Word) (es : List Event) :
    (s.withInbox es).writeReg r w = (s.writeReg r w).withInbox es := by cases r <;> rfl

theorem step_of_write_reg {s : State} {r : RegName} (hidle : s.phase = .idle) (hw : r.writable = true)
    (hr : r ≠ .cmd) (w : Word) (es : List Event) :
    step (s.withInbox (.access (writeTarget (.reg r) w) :: es)) = .next ((s.writeReg r w).withInbox es) := by
  rw [step_of_writeTarget (t := .reg r) trivial hw w es, ← writeReg_withInbox]
  exact hostWrite_reg_of_idle (s := s.withInbox es) hidle hr w

/-! ### LOADV (R112) -/

/-- The host writes of the words `ws` of a literal to a buffer. -/
def loadEvents (b : BufferName) (lit : Literal) (ws : List Nat) : List Event :=
  ws.map (fun w => .access (writeTarget (.word b w) (lit.word w)))

/-- The state after the words `ws` of a literal are stored in a buffer. -/
def State.loadWords (s : State) (b : BufferName) (lit : Literal) (ws : List Nat) : State :=
  ws.foldl (fun u w => u.writeWord b w (lit.word w)) s

@[simp] theorem loadWords_phase (s : State) (b : BufferName) (lit : Literal) (ws : List Nat) :
    (s.loadWords b lit ws).phase = s.phase := by
  induction ws generalizing s with
  | nil => rfl
  | cons w ws ih => exact ih (s.writeWord b w (lit.word w))

@[simp] theorem loadWords_regValue (s : State) (b : BufferName) (lit : Literal) (ws : List Nat) (r : RegName) :
    (s.loadWords b lit ws).regValue r = s.regValue r := by
  induction ws generalizing s with
  | nil => rfl
  | cons w ws ih => exact (ih (s.writeWord b w (lit.word w))).trans (by cases r <;> rfl)

/-- The host writes of the words store them, one a step. -/
theorem runsTo_loadWords {s : State} {b : BufferName} {lit : Literal} {ws : List Nat} (hidle : s.phase = .idle)
    (hws : ∀ w ∈ ws, w < b.words s.cfg) (es : List Event) :
    RunsTo ws.length (s.withInbox (loadEvents b lit ws ++ es)) ((s.loadWords b lit ws).withInbox es) := by
  induction ws generalizing s with
  | nil => exact runsTo_zero _
  | cons w ws ih =>
    obtain ⟨hw, hws⟩ := List.forall_mem_cons.mp hws
    exact runsTo_succ (step_of_write_word hidle hw (lit.word w) _) (ih (s := s.writeWord b w _) hidle hws)

theorem getLsbD_literalWord (lit : Literal) (w : Nat) {i : Nat} (h : i < 32) :
    (lit.word w).getLsbD (31 - i) = lit.elements.getD (32 * w + i) false := by
  rw [← Option.some_inj, Literal.word, ← getElem?_eq_getLsbD_wordOfElements (by simp [Config.wordBits]) h]
  simp [Config.wordBits, h]

/-- After `n` words of the literal, the elements below `32·n` are the literal's and the others stand. -/
theorem element_loadWords (s : State) (b : BufferName) (lit : Literal) (n : Nat) (c : BufferName) (j : Nat) :
    (s.loadWords b lit (List.range n)).element c j =
      if c = b ∧ j < 32 * n then some (lit.elements.getD j false) else s.element c j := by
  induction n with
  | zero => simp [State.loadWords]
  | succ n ih =>
    have hlast : s.loadWords b lit (List.range (n + 1)) =
        (s.loadWords b lit (List.range n)).writeWord b n (lit.word n) := by
      simp [State.loadWords, List.range_succ]
    rw [hlast, element_writeWord, ih]
    by_cases hc : c = b
    · obtain hbelow | hword | habove :
          j < 32 * n ∨ (32 * n ≤ j ∧ j < 32 * n + 32) ∨ 32 * n + 32 ≤ j := by omega
      · rw [if_neg (by omega), if_pos ⟨hc, hbelow⟩, if_pos ⟨hc, by omega⟩]
      · rw [if_pos ⟨hc, hword⟩, if_pos ⟨hc, by omega⟩, getLsbD_literalWord lit n (by omega),
          Nat.add_sub_cancel' hword.1]
      · rw [if_neg (by omega), if_neg (by omega), if_neg (by omega)]
    · simp [hc]

theorem lengthReg_writable (b : BufferName) : (lengthReg b).writable = true := by cases b <;> rfl

theorem lengthReg_ne_cmd (b : BufferName) : lengthReg b ≠ .cmd := by cases b <;> decide

theorem regValue_writeReg_lengthReg (s : State) (b : BufferName) (w : Word) :
    (s.writeReg (lengthReg b) w).regValue (lengthReg b) = w := by cases b <;> rfl

theorem regValue_writeReg_of_ne (s : State) {q r : RegName} (h : r ≠ q) (w : Word) :
    (s.writeReg q w).regValue r = s.regValue r := by
  cases q <;> cases r
  case seedLen.seedLen | selector.selector | level.level | keyLen.keyLen | dataLen.dataLen => exact absurd rfl h
  all_goals rfl

theorem vectorWords_le_words {p : Params} {b : BufferName} {L : Nat} (h : L ≤ b.bits p) :
    vectorWords L ≤ b.words p := by
  simp only [vectorWords, ceilDiv, BufferName.bits, Config.wordBits] at h ⊢
  omega

theorem le_vectorWords (L : Nat) : L ≤ 32 * vectorWords L := le_wordBits_mul_ceilDiv L

/-- Depends on KEY_FACTOR being at most 4 (R7). -/
theorem bits_lt (p : Params) (b : BufferName) : b.bits p < 2 ^ 32 := by
  have := four_mul_words_le p b
  simp only [BufferName.bits, Config.wordBits]
  omega

/-- The state after LOADV: its words stored, then the length. -/
def State.loadVector (s : State) (b : BufferName) (L : Nat) (lit : Literal) : State :=
  (s.loadWords b lit (List.range (vectorWords L))).writeReg (lengthReg b) (BitVec.ofNat 32 L)

section LoadVector

variable (s : State) (b : BufferName) (L : Nat) (lit : Literal)

theorem loadVector_phase : (s.loadVector b L lit).phase = s.phase :=
  (State.writeReg_phase ..).trans (loadWords_phase ..)

theorem element_loadVector (c : BufferName) (j : Nat) :
    (s.loadVector b L lit).element c j =
      if c = b ∧ j < 32 * vectorWords L then some (lit.elements.getD j false) else s.element c j := by
  rw [State.element, State.loadVector, State.writeReg_mem]
  exact element_loadWords s b lit (vectorWords L) c j

theorem loadVector_regValue_lengthReg :
    (s.loadVector b L lit).regValue (lengthReg b) = BitVec.ofNat 32 L := regValue_writeReg_lengthReg ..

theorem loadVector_regValue_of_ne {r : RegName} (h : r ≠ lengthReg b) :
    (s.loadVector b L lit).regValue r = s.regValue r :=
  (regValue_writeReg_of_ne _ h _).trans (loadWords_regValue ..)

end LoadVector

theorem loadv_events (polls : Nat) (b : BufferName) (L : Nat) (lit : Literal) :
    (Stmt.accesses polls (.loadv b L lit)).map Event.access =
      loadEvents b lit (List.range (vectorWords L)) ++
        [.access (writeTarget (.reg (lengthReg b)) (BitVec.ofNat 32 L))] := by
  rw [Stmt.accesses, List.map_append, List.map_map]
  rfl

/-- LOADV's accesses, performed while idle, have its effect and leave no event. Depends on KEY_FACTOR being at most 4
(R7). -/
theorem runsTo_loadVector {s : State} {b : BufferName} {L : Nat} {lit : Literal} (hidle : s.phase = .idle)
    (hL : L ≤ b.bits s.cfg) (hinbox : s.inbox = (Stmt.accesses 0 (.loadv b L lit)).map .access) :
    RunsTo s.inbox.length s ((s.loadVector b L lit).withInbox []) := by
  rw [loadv_events] at hinbox
  have hfits : ∀ w ∈ List.range (vectorWords L), w < b.words s.cfg := fun w hw =>
    (List.mem_range.mp hw).trans_le (vectorWords_le_words hL)
  have hwords := runsTo_loadWords (lit := lit) hidle hfits
    [.access (writeTarget (.reg (lengthReg b)) (BitVec.ofNat 32 L))]
  have hidleWords : (s.loadWords b lit (List.range (vectorWords L))).phase = .idle :=
    (loadWords_phase ..).trans hidle
  have hlength := step_of_write_reg hidleWords (lengthReg_writable b) (lengthReg_ne_cmd b) (BitVec.ofNat 32 L) []
  have hrun := runsTo_add hwords (runsTo_succ hlength (runsTo_zero _))
  rw [← hinbox] at hrun
  rw [hinbox, List.length_append, loadEvents, List.length_map]
  exact hrun

/-- Settles O29: the words are stored one by one, then the length register, the only register written. -/
theorem loadvPlacesTheLiteral : Obligations.LoadvPlacesTheLiteral := by
  intro s b L lit hidle hL hinbox
  have helement : ∀ c j, ((s.loadVector b L lit).withInbox []).element c j = _ := element_loadVector s b L lit
  refine ⟨(s.loadVector b L lit).withInbox [], runsTo_loadVector hidle hL hinbox,
    (loadVector_phase s b L lit).trans hidle, fun j hj => ?_, fun j hj => ?_, fun c hc j => ?_, ?_, fun r hr => ?_⟩
  · rw [helement, if_pos ⟨rfl, hj.trans_le (le_vectorWords L)⟩]
  · rw [helement, if_neg (by omega)]
  · rw [helement, if_neg (fun h => hc h.1)]
  · rw [regValue_withInbox, loadVector_regValue_lengthReg]
    exact Nat.mod_eq_of_lt (hL.trans_lt (bits_lt s.cfg b))
  · rw [regValue_withInbox, loadVector_regValue_of_ne s b L lit hr]

end Sys2Proof.Machine
end

section
/-!
PROOFS. The end of a host program (spec/30_encoding.md R113; spec/70_reset_and_hazards.md R291): what an event does
does not depend on the events to come, so performing events and running the machine over them are the same.
-/

namespace Sys2Proof.Machine

/-! ### The events to come do not change what an event does (R80) -/

theorem issue_withInbox {s t : State} {check : Option ErrorCode} {start : Except Fault Running}
    (h : issue s check start = .next t) (l : List Event) :
    issue (s.withInbox l) check start = .next (t.withInbox l) := by
  obtain ⟨hb, rfl⟩ | ⟨hb, e, rfl, rfl⟩ | ⟨hb, rfl, r, rfl, rfl⟩ := issue_next h
  · exact issue_busy (s := s.withInbox l) hb check start
  · exact issue_reject (s := s.withInbox l) hb e start
  · exact issue_accept (s := s.withInbox l) hb r

theorem exec_withInbox {i : Instr} {s t : State} (h : exec i s = .next t) (l : List Event) :
    exec i (s.withInbox l) = .next (t.withInbox l) := by cases i <;> exact issue_withInbox h l

theorem issueWord_busy {s : State} (h : s.busy = true) (w : Word) : issueWord s w = .next s.dropWrite :=
  (hostWrite_cmd s w).symm.trans (hostWrite_busy h _ w)

theorem issueWord_withInbox {s t : State} {w : Word} (h : issueWord s w = .next t) (l : List Event) :
    issueWord (s.withInbox l) w = .next (t.withInbox l) := by
  cases hdecode : decode w with
  | command i =>
    rw [issueWord_of_decode hdecode] at h ⊢
    exact exec_withInbox h l
  | illegalCommand =>
    cases hb : s.busy with
    | true =>
      rw [issueWord_busy hb] at h
      cases h
      exact issueWord_busy (s := s.withInbox l) hb w
    | false =>
      rw [issueWord_reject hdecode hb] at h
      cases h
      exact issueWord_reject (s := s.withInbox l) hdecode hb

theorem hostWrite_withInbox {s u : State} {t : Target} {w : Word} (h : hostWrite s t w = .next u)
    (l : List Event) : hostWrite (s.withInbox l) t w = .next (u.withInbox l) := by
  obtain ⟨hb, rfl⟩ | ⟨-, rfl, hi⟩ | ⟨hb, r, rfl, hr, rfl⟩ | ⟨hb, b, k, rfl, rfl⟩ := hostWrite_next h
  · exact hostWrite_busy (s := s.withInbox l) hb t w
  · rw [hostWrite_cmd]
    exact issueWord_withInbox hi l
  · rw [← writeReg_withInbox]
    exact hostWrite_reg_of_idle (s := s.withInbox l) (s.busy_eq_false_iff.mp hb) hr w
  · exact hostWrite_word_of_idle (s := s.withInbox l) (s.busy_eq_false_iff.mp hb) b k w

theorem readTarget_withInbox (s : State) (t : Target) (l : List Event) :
    (s.withInbox l).readTarget t = s.readTarget t := by
  cases t with
  | reg r => simp [State.readTarget, regValue_withInbox]
  | word b k => rfl

theorem hostAccess_withInbox {s u : State} {a : Access} (h : hostAccess s a = .next u) (l : List Event) :
    hostAccess (s.withInbox l) a = .next (u.withInbox l) := by
  obtain ⟨t, ht, ⟨hd, rfl⟩ | ⟨hd, hw⟩⟩ := hostAccess_next h
  · rw [hostAccess_read (s := s.withInbox l) ht hd, readTarget_withInbox]
    rfl
  · rw [hostAccess_write (s := s.withInbox l) ht hd]
    exact hostWrite_withInbox hw l

theorem commit_withInbox (s : State) (r : Running) (l : List Event) :
    (s.withInbox l).commit r = (s.commit r).withInbox l := by
  obtain ⟨j, work, round, pos⟩ := r
  cases j <;> rfl

theorem complete_withInbox (s : State) (r : Running) (l : List Event) :
    (s.withInbox l).complete r = (s.complete r).withInbox l := by
  rw [State.complete, commit_withInbox]
  rfl

theorem engineTurn_withInbox (s : State) (l : List Event) :
    (s.withInbox l).engineTurn = s.engineTurn.withInbox l := by
  obtain ⟨h, heq⟩ | ⟨r, h, hr, heq⟩ | ⟨r, h, hr, heq⟩ := engineTurn_cases s <;> rw [heq]
  · simp [State.engineTurn, h]
  · simp [State.engineTurn, State.withInbox, h, hr]
  · simp [State.engineTurn, h, hr, complete_withInbox]

theorem applyEvent_withInbox {s u : State} {e : Event} (h : applyEvent s e = .next u) (l : List Event) :
    applyEvent (s.withInbox l) e = .next (u.withInbox l) := by
  cases e with
  | access a => exact hostAccess_withInbox h l
  | engine =>
    cases h
    exact congrArg Host.Outcome.next (engineTurn_withInbox s l)
  | reset =>
    cases h
    rfl

/-- An event leaves the events to come as they are: with them put in place already, it answers the same state. -/
theorem applyEvent_inbox {s u : State} {e : Event} (h : applyEvent s e = .next u) : u.inbox = s.inbox := by
  have hsame : Host.Outcome.next u = .next (u.withInbox s.inbox) := h.symm.trans (applyEvent_withInbox h s.inbox)
  injection hsame with hu
  calc u.inbox = (u.withInbox s.inbox).inbox := congrArg State.inbox hu
    _ = s.inbox := rfl

/-- A step takes the next event and does what that event does whatever comes later. -/
theorem step_withInbox_cons_iff {s v : State} {e : Event} {l : List Event} :
    step (s.withInbox (e :: l)) = .next v ↔ ∃ u, applyEvent s e = .next u ∧ v = u.withInbox l := by
  rw [step_withInbox_cons]
  constructor
  · intro h
    refine ⟨v.withInbox s.inbox, applyEvent_withInbox h s.inbox, ?_⟩
    have hv : v.inbox = l := applyEvent_inbox h
    rw [← hv]
    rfl
  · rintro ⟨u, hu, rfl⟩
    exact applyEvent_withInbox hu l

/-! ### The end of a program (R113, R291) -/

theorem perform_cons_iff {s t : State} {e : Event} {es : List Event} :
    s.perform (e :: es) = some t ↔ ∃ u, applyEvent s e = .next u ∧ u.perform es = some t := by
  rw [State.perform]
  cases applyEvent s e <;> simp

theorem runsTo_succ_iff {k : Nat} {s u : State} : RunsTo (k + 1) s u ↔ ∃ t, step s = .next t ∧ RunsTo k t u :=
  ⟨runsTo_succ_inv, fun ⟨_, ht, hk⟩ => runsTo_succ ht hk⟩

/-- States with the same events to come are told apart by the rest. -/
theorem withInbox_inj {s t : State} (h : t.inbox = s.inbox) {l : List Event} (hl : s.withInbox l = t.withInbox l) :
    s = t :=
  calc s = (s.withInbox l).withInbox s.inbox := rfl
    _ = (t.withInbox l).withInbox t.inbox := by rw [hl, h]
    _ = t := rfl

/-- The performing of events is the machine's run over them, whatever comes later. -/
theorem perform_eq_some_iff_runsTo {s t : State} (h : t.inbox = s.inbox) (es later : List Event) :
    s.perform es = some t ↔ RunsTo es.length (s.withInbox (es ++ later)) (t.withInbox later) := by
  induction es generalizing s with
  | nil =>
    constructor
    · rintro ⟨⟩
      exact runsTo_zero _
    · intro hrun
      injection hrun with heq
      exact congrArg some (withInbox_inj h heq)
  | cons e es ih =>
    rw [perform_cons_iff, List.length_cons, List.cons_append, runsTo_succ_iff]
    constructor
    · rintro ⟨u, hu, hperform⟩
      exact ⟨_, step_withInbox_cons_iff.mpr ⟨u, hu, rfl⟩,
        (ih (h.trans (applyEvent_inbox hu).symm)).mp hperform⟩
    · rintro ⟨v, hv, hrun⟩
      obtain ⟨u, hu, rfl⟩ := step_withInbox_cons_iff.mp hv
      exact ⟨u, hu, (ih (h.trans (applyEvent_inbox hu).symm)).mpr hrun⟩

/-- Settles O50: State.endState says the same of its events, their performing being the machine's run over them. -/
theorem endStateIsTheStateAfterTheLastStatement : Obligations.EndStateIsTheStateAfterTheLastStatement := by
  intro s t prog ks es later h
  rw [endState_eq_some, endsProgram_iff, perform_eq_some_iff_runsTo h es later, State.busy_eq_false_iff, and_assoc]

end Sys2Proof.Machine
end

section
/-!
PROOFS. The run of an accepted command (spec/10_state.md R50, spec/70_reset_and_hazards.md R281, R282): with no event
to come, the engine's turns take the sequencer from one exact partial result to the next and end in the one event that
writes the outputs, for all three commands.
-/

namespace Sys2Proof.Machine

/-! ### The turns still missing (log 8) -/

theorem turnsLeft_of_finished {r : Running} (hround : r.round = r.job.rounds) (hpos : r.pos = .step1) :
    r.turnsLeft = 1 := by simp [Running.turnsLeft, hround, hpos]

theorem one_lt_turnsLeft {r : Running} (hround : r.round < r.job.rounds) : 1 < r.turnsLeft := by
  obtain ⟨j, work, round, pos⟩ := r
  cases pos <;> simp only [Running.turnsLeft] at hround ⊢ <;> omega

theorem advance_job (p : Params) (r : Running) : (r.advance p).job = r.job := by
  obtain ⟨j, work, round, pos⟩ := r
  cases pos <;> rfl

/-- One step of a round is one of the turns still missing. -/
theorem turnsLeft_advance (p : Params) {r : Running} (hround : r.round < r.job.rounds) :
    (r.advance p).turnsLeft = r.turnsLeft - 1 := by
  obtain ⟨j, work, round, pos⟩ := r
  cases pos <;> simp only [Running.turnsLeft, Running.advance, Position.next] at hround ⊢ <;> omega

/-! ### The turns before the completion -/

/-- The state with a command's sequencer replaced. -/
def State.withRunning (s : State) (r : Running) : State := { s with phase := .running r }

/-- One step of a round (R139, R166, R181). -/
theorem engineTurn_of_round_left {s : State} {r : Running} (hround : r.round < r.job.rounds) :
    (s.withRunning r).engineTurn = s.withRunning (r.advance s.cfg) := if_pos hround

/-- Short of the completion the turns change the sequencer alone, which stays exact. -/
theorem runsTo_exact {s : State} {r : Running} (hinbox : s.inbox = []) (hexact : r.Exact s) {k : Nat}
    (hk : k < r.turnsLeft) :
    ∃ r', RunsTo k (s.withRunning r) (s.withRunning r') ∧ r'.Exact s ∧ r'.job = r.job ∧
      r'.turnsLeft = r.turnsLeft - k := by
  induction k with
  | zero => exact ⟨r, runsTo_zero _, hexact, rfl, rfl⟩
  | succ k ih =>
    obtain ⟨r', hrun, hexact', hjob, hleft⟩ := ih (by omega)
    have hround : r'.round < r'.job.rounds := by
      refine hexact'.round.resolve_right fun ⟨hr, hp⟩ => ?_
      have := turnsLeft_of_finished hr hp
      omega
    have hstep : step (s.withRunning r') = .next (s.withRunning (r'.advance s.cfg)) :=
      (step_nil (s := s.withRunning r') hinbox).trans (congrArg _ (engineTurn_of_round_left hround))
    refine ⟨r'.advance s.cfg, runsTo_add hrun (runsTo_succ hstep (runsTo_zero _)), hexact'.advance hround,
      (advance_job s.cfg r').trans hjob, ?_⟩
    rw [turnsLeft_advance s.cfg hround]
    omega

/-! ### The completion (R282) -/

/-- The sequencer of a command after its last round. -/
def Job.finished (p : Params) (j : Job) : Running := ⟨j, j.finalWork p, j.rounds, .step1⟩

/-- An exact sequencer with one turn left has finished its rounds. -/
theorem Running.Exact.eq_finished {s : State} {r : Running} (h : r.Exact s) (hleft : r.turnsLeft = 1) :
    r = r.job.finished s.cfg := by
  obtain ⟨hround, hpos⟩ := h.round.resolve_left fun hr => by have := one_lt_turnsLeft hr; omega
  have hwork := h.work
  rw [hround, hpos] at hwork
  calc r = ⟨r.job, r.work, r.round, r.pos⟩ := rfl
    _ = r.job.finished s.cfg := by rw [hwork, hround, hpos]; rfl

/-- What the finished sequencer writes is the command's result as one function of its operands (R18). -/
theorem engineTurn_finished (s : State) (j : Job) :
    (s.withRunning (j.finished s.cfg)).engineTurn =
      { s.outputs j with status := s.status.completed, phase := .idle } := by
  refine (if_neg (Nat.lt_irrefl j.rounds)).trans ?_
  cases j <;> rfl

theorem Running.Exact.turnsLeft_pos {s : State} {r : Running} (h : r.Exact s) : 0 < r.turnsLeft := by
  obtain hround | ⟨hround, hpos⟩ := h.round
  · exact Nat.zero_lt_of_lt (one_lt_turnsLeft hround)
  · exact (turnsLeft_of_finished hround hpos).symm ▸ Nat.one_pos

/-- All the turns still missing end in the completion, with the outputs computed from the command's operands. -/
theorem runsTo_completion {s : State} {r : Running} (hinbox : s.inbox = []) (hexact : r.Exact s) :
    RunsTo r.turnsLeft (s.withRunning r) { s.outputs r.job with status := s.status.completed, phase := .idle } := by
  have hpos := hexact.turnsLeft_pos
  obtain ⟨r', hrun, hexact', hjob, hleft⟩ := runsTo_exact hinbox hexact (Nat.sub_one_lt_of_lt hpos)
  have hfinished : r' = r.job.finished s.cfg := hjob ▸ hexact'.eq_finished (by omega)
  subst hfinished
  have hstep := (step_nil (s := s.withRunning (r.job.finished s.cfg)) hinbox).trans
    (congrArg _ (engineTurn_finished s r.job))
  simpa only [Nat.sub_add_cancel hpos] using runsTo_add hrun (runsTo_succ hstep (runsTo_zero _))

/-! ### A command from its acceptance to its completion -/

/-- The state in which a command is just accepted (R280). -/
def State.started (s : State) (j : Job) : State := s.accept ⟨j, j.initial s.cfg, 0, .step1⟩

theorem started_exact {s : State} {j : Job} (hj : j.current s) :
    Running.Exact ⟨j, j.initial s.cfg, 0, .step1⟩ (s.started j) :=
  (exact_initial hj).frame Status.clear _ s.inbox s.returned s.draws

/-- Until its completion an accepted command is busy, and only its sequencer changes. -/
theorem started_busy_until_completion {s : State} {j : Job} (hinbox : s.inbox = []) (hj : j.current s) {k : Nat}
    (hk : k < j.turns) :
    ∃ m, RunsTo k (s.started j) m ∧ m.busy = true ∧ m = { s.started j with phase := m.phase } := by
  obtain ⟨r, hrun, -⟩ := runsTo_exact (s := s.started j) hinbox (started_exact hj) hk
  exact ⟨_, hrun, rfl, rfl⟩

/-- The state after the completion of a command that no event disturbed. -/
def State.finishedWith (s : State) (j : Job) : State :=
  { s.outputs j with status := ⟨true, false, false, 0#4⟩, phase := .idle }

/-- An accepted command completes after its turns, with its outputs written and nothing else. -/
theorem runsTo_finishedWith {s : State} {j : Job} (hinbox : s.inbox = []) (hj : j.current s) :
    RunsTo j.turns (s.started j) (s.finishedWith j) := by
  have hrun := runsTo_completion (s := s.started j) hinbox (started_exact hj)
  cases j <;> exact hrun

theorem finishedWith_regValue_status (s : State) (j : Job) :
    (s.finishedWith j).regValue .status = 0x00000002#32 :=
  show (⟨true, false, false, 0#4⟩ : Status).word false = 0x00000002#32 by decide

end Sys2Proof.Machine
end

section
/-!
PROOFS. The values DERIVE's operands resolve to (spec/41_key_derivation.md R132, R133, R137, R138), what the key
depends on (R144), and the effect of the command at its completion (R141 to R143).
-/

namespace Sys2Proof.Machine

/-! ### The resolved selector and level (R132, R133) -/

/-- Depends on N_SEL not being 0 (R7). -/
theorem resolveSelector_cast (z : Int) : (resolveSelector z : Int) = (z - 1) % (Config.nSel : Int) :=
  Int.toNat_of_nonneg (Int.emod_nonneg _ (by decide))

/-- Depends on LEVEL_MOD not being 0 (R7). -/
theorem resolveLevel_cast (z : Int) : (resolveLevel z : Int) = (z - 1) % (Config.levelMod : Int) + 1 := by
  rw [resolveLevel, Int.natCast_add, Int.toNat_of_nonneg (Int.emod_nonneg _ (by decide)), Int.natCast_one]

theorem names_getElem?_resolveSelector (p : Params) (z : Int) :
    p.names[resolveSelector z]? = some (resolvedName p (resolveSelector z)) := by
  obtain ⟨-, -, hlen, -⟩ := p.ok
  have hlt : resolveSelector z < p.names.length := hlen ▸ resolveSelector_lt z
  simp [resolvedName, hlt]

/-- Settles O33: both values are remainders of floor division, and NAMES has an entry for each resolved selector. -/
theorem selectorAndLevelAreNormalisedByFloorModulo : Obligations.SelectorAndLevelAreNormalisedByFloorModulo := by
  refine ⟨fun z => ⟨resolveSelector_lt z, ?_, Nat.le_add_left .., resolveLevel_le z, ?_⟩, by decide, by decide,
    names_getElem?_resolveSelector⟩
  · rw [resolveSelector_cast]
    simp only [Config.nSel]
    omega
  · rw [resolveLevel_cast]
    simp only [Config.levelMod]
    omega

theorem resolveSelector_congr {y z : Int} (h : (y - z) % 40 = 0) : resolveSelector y = resolveSelector z := by
  simp only [resolveSelector, Config.nSel]
  omega

theorem resolveLevel_congr {y z : Int} (h : (y - z) % 4 = 0) : resolveLevel y = resolveLevel z := by
  simp only [resolveLevel, Config.levelMod]
  omega

/-! ### Round constants and rotation amounts (R137, R138) -/

/-- 39·3 + 4 = 121 bounds the constant before it is reduced. Depends on N_SEL, LEVEL_MOD and ROUNDS_GEN (R7). -/
theorem roundConstant_sum_le {sel lvl r : Nat} (hsel : sel < 40) (hlvl : lvl ≤ 4) (hr : r < 3) :
    sel * (r + 1) + lvl ≤ 121 :=
  calc sel * (r + 1) + lvl ≤ 39 * 3 + 4 := Nat.add_le_add (Nat.mul_le_mul (by omega) (by omega)) hlvl
    _ = 121 := rfl

/-- Settles O35: the modulus 255 lies above the bound 121, and the rotation amount is a remainder modulo L. -/
theorem roundConstantAndRotationValues : Obligations.RoundConstantAndRotationValues := by
  refine ⟨fun sel lvl r hsel hlo hhi hr => ?_, fun lvl r L hL => ⟨Nat.mod_lt _ hL, ?_⟩, by decide, by decide,
    by decide⟩
  · have hle := roundConstant_sum_le hsel hhi hr
    have heq : roundConstant sel lvl r = sel * (r + 1) + lvl :=
      Nat.mod_eq_of_lt (Nat.lt_of_le_of_lt hle (by decide))
    exact ⟨heq, heq ▸ Nat.le_add_left_of_le hlo, heq ▸ hle⟩
  · simp only [rotation, Config.rotLevelMult, Config.rotRoundMult, Nat.mul_comm]

/-! ### What the key depends on (R144) -/

section Tables

variable {p q : Params} (hsbox : p.sbox = q.sbox) (hnames : p.names = q.names)

include hsbox in
theorem deriveRound_eq_of_sbox (sel lvl : Nat) : deriveRound p sel lvl = deriveRound q sel lvl := by
  funext s r
  simp only [deriveRound, deriveStep, hsbox]

include hnames in
theorem deriveInitial_eq_of_names (ops : DeriveOperands) : deriveInitial p ops = deriveInitial q ops := by
  simp only [deriveInitial, combine, auxBits, resolvedName, hnames]

include hsbox hnames in
theorem deriveKey_eq_of_tables (ops : DeriveOperands) : deriveKey p ops = deriveKey q ops := by
  rw [deriveKey, deriveRound_eq_of_sbox hsbox, deriveInitial_eq_of_names hnames, deriveKey]

end Tables

/-- The raw selector and level enter the key through their resolved values alone. -/
theorem deriveKey_eq_of_resolved (p : Params) {a b : DeriveOperands} (hn : a.n = b.n) (hseed : a.seed = b.seed)
    (hsel : resolveSelector a.sRaw = resolveSelector b.sRaw) (hlvl : resolveLevel a.lRaw = resolveLevel b.lRaw) :
    deriveKey p a = deriveKey p b := by
  simp only [deriveKey, deriveRounds, deriveInitial, hn, hseed, hsel, hlvl]

/-- Settles O36: equal residues resolve to equal values, and of the configuration only SBOX and NAMES are read. -/
theorem deriveDependsOnlyOnResolvedOperands : Obligations.DeriveDependsOnlyOnResolvedOperands := by
  intro p q a b hsbox hnames hn hseed hs hl
  have hsel := resolveSelector_congr hs
  have hlvl := resolveLevel_congr hl
  exact ⟨(deriveKey_eq_of_resolved p hn hseed hsel hlvl).trans (deriveKey_eq_of_tables hsbox hnames b), hsel, hlvl⟩

/-! ### The effect of DERIVE (R141 to R143) -/

/-- No step changes the length the expansion gave the working vector. -/
theorem length_deriveKey (p : Params) {ops : DeriveOperands} (h : ops.seed.length = ops.n) :
    (deriveKey p ops).length = Config.keyFactor * ops.n :=
  calc (deriveKey p ops).length = ((Job.derive ops).finalWork p).length := rfl
    _ = (deriveInitial p ops).length := length_workAt p (.derive ops) ..
    _ = Config.keyFactor * ops.n := length_deriveInitial h

theorem deriveOps_seed_length (s : State) : s.deriveOps.seed.length = s.deriveOps.n := length_elements ..

theorem deriveOps_current {s : State} (h : s.derivable) : (Job.derive s.deriveOps).current s := by
  obtain ⟨-, hlen, hseed⟩ := h
  exact ⟨deriveCheck_eq_none_iff.mpr hlen, deriveOperands_of_defined hseed⟩

theorem exec_derive_of_derivable {s : State} (h : s.derivable) :
    exec .derive s = .next (s.started (.derive s.deriveOps)) := deriveIsAcceptedWithItsOperands s h

/-- The key's elements lie in KEY_BUF from element 0, and the elements after them are untouched. -/
theorem element_keyBuf_finishedWith (s : State) (j : Nat) :
    (s.finishedWith (.derive s.deriveOps)).element .keyBuf j =
      if j < 4 * s.seedLen.toNat then (deriveKey s.cfg s.deriveOps)[j]? else s.element .keyBuf j := by
  have hlen : (deriveKey s.cfg s.deriveOps).length = 4 * s.seedLen.toNat :=
    length_deriveKey s.cfg (deriveOps_seed_length s)
  calc (s.finishedWith (.derive s.deriveOps)).element .keyBuf j
      = Buffer.bit (Buffer.putVec s.mem.keyBuf 0 (deriveKey s.cfg s.deriveOps)) j := rfl
    _ = if 0 ≤ j ∧ j < 0 + 4 * s.seedLen.toNat then (deriveKey s.cfg s.deriveOps)[j - 0]?
          else s.element .keyBuf j := hlen ▸ bit_putVec ..
    _ = _ := by simp only [Nat.zero_le, true_and, Nat.zero_add, Nat.sub_zero]

/-- A length within the capacity fits KEY_LEN. Depends on KEY_FACTOR (R7). -/
theorem toNat_keyLen_of_derivable {s : State} (h : s.derivable) :
    (BitVec.ofNat 32 (Config.keyFactor * s.deriveOps.n)).toNat = 4 * s.seedLen.toNat := by
  obtain ⟨-, hlen, -⟩ := h
  obtain ⟨⟨-, hmax⟩, -⟩ := s.cfg.ok
  have hcap : s.seedLen.toNat ≤ 8192 := hlen.trans hmax
  exact Nat.mod_eq_of_lt (show 4 * s.seedLen.toNat < 2 ^ 32 by omega)

/-- A resolved selector fits RES_SEL. Depends on N_SEL (R7). -/
theorem toNat_ofNat_resolveSelector (z : Int) : (BitVec.ofNat 6 (resolveSelector z)).toNat = resolveSelector z :=
  Nat.mod_eq_of_lt ((resolveSelector_lt z).trans (by decide))

/-- A resolved level fits RES_LEVEL. Depends on LEVEL_MOD (R7). -/
theorem toNat_ofNat_resolveLevel (z : Int) : (BitVec.ofNat 3 (resolveLevel z)).toNat = resolveLevel z :=
  Nat.mod_eq_of_lt ((resolveLevel_le z).trans_lt (by decide))

/-- DERIVE writes KEY_BUF, KEY_LEN, RES_SEL and RES_LEVEL, and STATUS records the completion; the rest stands. -/
theorem finishedWith_derive_frame {s : State} (hidle : s.phase = .idle) (ops : DeriveOperands) :
    s.finishedWith (.derive ops) = { s with
      status   := ⟨true, false, false, 0#4⟩
      mem      := { s.mem with keyBuf := (s.finishedWith (.derive ops)).mem.keyBuf }
      keyLen   := (s.finishedWith (.derive ops)).keyLen
      resSel   := (s.finishedWith (.derive ops)).resSel
      resLevel := (s.finishedWith (.derive ops)).resLevel } := by
  rw [hidle]
  rfl

/-- Settles O15: the run of an accepted DERIVE, its outputs read register by register and element by element. -/
theorem deriveWritesKeyAndResultsAtCompletion : Obligations.DeriveWritesKeyAndResultsAtCompletion := by
  intro s hs hinbox
  have hcurrent := deriveOps_current hs
  exact ⟨s.started (.derive s.deriveOps), s.finishedWith (.derive s.deriveOps), exec_derive_of_derivable hs,
    runsTo_finishedWith hinbox hcurrent,
    fun k hk => started_busy_until_completion hinbox hcurrent hk,
    fun j hj => (element_keyBuf_finishedWith s j).trans (if_pos hj),
    fun j hj => (element_keyBuf_finishedWith s j).trans (if_neg (Nat.not_lt.mpr hj)),
    length_deriveKey s.cfg (deriveOps_seed_length s),
    toNat_keyLen_of_derivable hs,
    toNat_ofNat_resolveSelector s.selector.toInt,
    toNat_ofNat_resolveLevel s.level.toInt,
    finishedWith_derive_frame hs.1 s.deriveOps,
    finishedWith_regValue_status s _⟩

/-! ### The empty seed (R142) -/

theorem derivable_of_empty_seed {s : State} (hidle : s.phase = .idle) (hlen : s.seedLen = 0#32) : s.derivable := by
  have hzero : uint32 s.seedLen = 0 := by rw [hlen]; rfl
  exact ⟨hidle, by omega, fun j hj => by omega⟩

@[simp] theorem putVec_nil (b : Buffer) : Buffer.putVec b 0 [] = b := by simp [Buffer.putVec, cellsFrom]

theorem deriveKey_of_empty_seed (p : Params) {ops : DeriveOperands} (h : ops.n = 0) : deriveKey p ops = [] := by
  simp [deriveKey, deriveRounds, deriveInitial, h]

/-- Settles O16: the empty key writes no element of KEY_BUF, and KEY_LEN is 4 times 0. -/
theorem emptySeedDerivesTheEmptyKey : Obligations.EmptySeedDerivesTheEmptyKey := by
  intro s hidle hlen hinbox
  have hs := derivable_of_empty_seed hidle hlen
  have hn : s.deriveOps.n = 0 := by rw [State.deriveOps, hlen]; rfl
  have hkey := deriveKey_of_empty_seed s.cfg hn
  refine ⟨_, _, exec_derive_of_derivable hs, runsTo_finishedWith hinbox (deriveOps_current hs), hkey, ?_⟩
  have hmem : (s.finishedWith (.derive s.deriveOps)).mem.keyBuf = s.mem.keyBuf :=
    calc (s.finishedWith (.derive s.deriveOps)).mem.keyBuf
        = Buffer.putVec s.mem.keyBuf 0 (deriveKey s.cfg s.deriveOps) := rfl
      _ = s.mem.keyBuf := by rw [hkey, putVec_nil]
  have hkeyLen : (s.finishedWith (.derive s.deriveOps)).keyLen = 0#32 :=
    congrArg (fun n => BitVec.ofNat 32 (Config.keyFactor * n)) hn
  rw [finishedWith_derive_frame hidle, hmem, hkeyLen]
  rfl

end Sys2Proof.Machine
end

section
/-!
PROOFS. The vectors DERIVE starts from, element by element (spec/41_key_derivation.md R134 to R136).
-/

namespace Sys2Proof.Machine

/-! ### Blocks of equal length -/

/-- Element `j` of block `i` of a vector made of blocks of `k` elements each. -/
theorem getElem?_flatMap_block {α : Type} (f : α → Bits) {k : Nat} {l : List α} (hf : ∀ x ∈ l, (f x).length = k)
    {i j : Nat} (hi : i < l.length) (hj : j < k) : (l.flatMap f)[k * i + j]? = (f l[i])[j]? := by
  induction l generalizing i with
  | nil => exact absurd hi (Nat.not_lt_zero i)
  | cons x l ih =>
    obtain ⟨hx, hl⟩ := List.forall_mem_cons.mp hf
    rw [List.flatMap_cons]
    cases i with
    | zero => rw [Nat.mul_zero, Nat.zero_add, List.getElem?_append_left (by omega)]; rfl
    | succ i =>
      have hsplit : k * (i + 1) + j = (f x).length + (k * i + j) := by rw [hx, Nat.mul_succ]; omega
      rw [hsplit, List.getElem?_append_right (Nat.le_add_right ..), Nat.add_sub_cancel_left]
      exact ih hl (Nat.lt_of_succ_lt_succ hi)

/-! ### Auxiliary bits (R134) -/

theorem getElem?_bitsK_testBit {k x i : Nat} (h : i < k) : (bitsK k x)[i]? = some (x.testBit (k - 1 - i)) := by
  have hi : i < (bitsK k x).length := by rwa [length_bitsK]
  rw [List.getElem?_eq_getElem hi, getElem_bitsK_testBit]

/-- Bit `i mod 8` of byte `i / 8` of the name, the most significant first. Depends on CHAR_BITS (R7). -/
theorem getElem?_namebits {name : List Byte} {i : Nat} (h : i < 8 * name.length) :
    (namebits name)[i]? = some ((name.getD (i / 8) 0#8).getLsbD (7 - i % 8)) := by
  have hbyte : i / 8 < name.length := by omega
  have hbit : i % 8 < 8 := by omega
  calc (namebits name)[i]? = (namebits name)[8 * (i / 8) + i % 8]? := by rw [Nat.div_add_mod]
    _ = (bitsK 8 name[i / 8].toNat)[i % 8]? :=
        getElem?_flatMap_block _ (fun _ _ => length_bitsK ..) hbyte hbit
    _ = some (name[i / 8].toNat.testBit (7 - i % 8)) := getElem?_bitsK_testBit hbit
    _ = _ := by rw [List.getD_eq_getElem _ _ hbyte, BitVec.testBit_toNat]

/-- Depends on CHAR_BITS and LEVEL_BITS (R7). -/
@[simp] theorem length_auxBits (p : Params) (sel lvl : Nat) :
    (auxBits p sel lvl).length = 8 * (resolvedName p sel).length + 3 := by
  rw [auxBits, List.length_append, length_namebits, length_bitsK]
  rfl

theorem getElem?_auxBits_name (p : Params) (sel lvl : Nat) {i : Nat} (h : i < 8 * (resolvedName p sel).length) :
    (auxBits p sel lvl)[i]? = some (((resolvedName p sel).getD (i / 8) 0#8).getLsbD (7 - i % 8)) := by
  have hi : i < (namebits (resolvedName p sel)).length := (length_namebits _).symm ▸ h
  rw [auxBits, List.getElem?_append_left hi, getElem?_namebits h]

theorem getElem?_auxBits_level (p : Params) (sel lvl : Nat) {i : Nat} (h : i < 3) :
    (auxBits p sel lvl)[8 * (resolvedName p sel).length + i]? = some (lvl.testBit (2 - i)) := by
  have hlen : (namebits (resolvedName p sel)).length = 8 * (resolvedName p sel).length := length_namebits _
  rw [auxBits, ← hlen, List.getElem?_append_right (Nat.le_add_right ..), Nat.add_sub_cancel_left]
  exact getElem?_bitsK_testBit h

/-! ### Combination and expansion (R135, R136) -/

theorem getElem?_tile (v : Bits) {L i : Nat} (h : i < L) : (tile v L)[i]? = some (v.getD (i % v.length) false) := by
  have hi : i < (tile v L).length := (length_tile v L).symm ▸ h
  rw [List.getElem?_eq_getElem hi, getElem_tile]

theorem getElem?_combine (p : Params) (sel lvl : Nat) {seed : Bits} {i : Nat} (h : i < seed.length) :
    (combine p sel lvl seed)[i]? =
      some (seed.getD i false ^^ (auxBits p sel lvl).getD (i % (auxBits p sel lvl).length) false) := by
  rw [combine, xorVec, List.getElem?_zipWith, getElem?_tile _ h, List.getElem?_eq_getElem h,
    List.getD_eq_getElem _ _ h]

/-- The expansion repeats the whole vector. Depends on KEY_FACTOR (R7). -/
theorem getElem?_expand {v : Bits} {i : Nat} (h : i < 4 * v.length) : (expand v)[i]? = v[i % v.length]? := by
  have hi : i % v.length < v.length := Nat.mod_lt _ (by omega)
  calc (expand v)[i]? = some (v.getD (i % v.length) false) := getElem?_tile v h
    _ = v[i % v.length]? := by rw [List.getElem?_eq_getElem hi, List.getD_eq_getElem _ _ hi]

/-- Settles O34: the name's bits are blocks of 8, and the combination and the expansion read them tiled. -/
theorem auxiliaryBitsAreCombinedAndExpanded : Obligations.AuxiliaryBitsAreCombinedAndExpanded := by
  intro p sel lvl seed
  have hlen : (combine p sel lvl seed).length = seed.length := length_combine p sel lvl seed
  refine ⟨length_auxBits p sel lvl, fun i hi => getElem?_auxBits_name p sel lvl hi,
    fun i hi => getElem?_auxBits_level p sel lvl hi, hlen, fun i hi => getElem?_combine p sel lvl hi, ?_,
    fun i hi => ?_⟩
  · rw [length_expand, hlen]
    rfl
  · rw [getElem?_expand (hlen.symm ▸ hi), hlen]

end Sys2Proof.Machine
end

section
/-!
PROOFS. The period of a derived key (spec/41_key_derivation.md R145): every step of a round commutes with a cyclic
shift by a multiple of 8, and the expansion is invariant under a shift by the seed's length.
-/

namespace Sys2Proof.Machine

/-! ### What commutes with a cyclic shift -/

theorem rotate_xorVec {a b : Bits} (h : a.length = b.length) (m : Nat) :
    (xorVec a b).rotate m = xorVec (a.rotate m) (b.rotate m) := List.zipWith_rotate_distrib _ a b m h

/-- A tiled vector of whole copies does not change under a shift by whole copies. -/
theorem rotate_tile {v : Bits} {L m : Nat} (hL : v.length ∣ L) (hm : v.length ∣ m) :
    (tile v L).rotate m = tile v L := by
  refine List.ext_getElem (List.length_rotate ..) fun i h1 h2 => ?_
  obtain ⟨c, rfl⟩ := hm
  rw [List.getElem_rotate, getElem_tile, getElem_tile, length_tile, Nat.mod_mod_of_dvd _ hL, Nat.add_mul_mod_self_left]

theorem rotl_mod_length (s : Bits) (k : Nat) : rotl s (k % s.length) = s.rotate k :=
  List.rotate_eq_drop_append_take_mod.symm

theorem rotate_comm (s : Bits) (k m : Nat) : (s.rotate k).rotate m = (s.rotate m).rotate k := by
  rw [List.rotate_rotate, List.rotate_rotate, Nat.add_comm]

/-- The circular feedback XORs a vector with itself shifted by one element to the right. -/
theorem feedback_eq_xorVec_rotate (s : Bits) : feedback s = xorVec s (s.rotate (s.length - 1)) := by
  have hlast : (s.drop (s.length - 1) ++ s).take s.length = s.rotate (s.length - 1) := by
    rw [List.rotate_eq_drop_append_take (Nat.sub_le ..), List.take_append, List.length_drop,
      List.take_of_length_le (by rw [List.length_drop]; omega)]
    congr 2
    omega
  rw [feedback, xorVec, List.zipWith_eq_zipWith_take_min, xorVec, List.length_append, ← hlast]
  simp

theorem rotate_feedback (s : Bits) (m : Nat) : (feedback s).rotate m = feedback (s.rotate m) := by
  rw [feedback_eq_xorVec_rotate, rotate_xorVec (List.length_rotate ..).symm, rotate_comm,
    feedback_eq_xorVec_rotate, List.length_rotate]

/-! ### Substitution, nibble by nibble (R204) -/

theorem nib_append_left {a b : Bits} {k : Nat} (h : 4 * (k + 1) ≤ a.length) : nib (a ++ b) k = nib a k := by
  simp only [nib, Config.nibbleBits]
  rw [List.drop_append_of_le_length (by omega), List.take_append_of_le_length (by rw [List.length_drop]; omega)]

theorem nib_append_right {a b : Bits} {q : Nat} (h : a.length = 4 * q) (k : Nat) : nib (a ++ b) (q + k) = nib b k := by
  simp only [nib, Config.nibbleBits, Nat.mul_add, ← h, List.drop_length_add_append]

/-- Whole nibbles are substituted apart from what follows them. Depends on NIBBLE_BITS (R7). -/
theorem subNibbles_append (table : List Nat) {a : Bits} (b : Bits) (h : 4 ∣ a.length) :
    subNibbles table (a ++ b) = subNibbles table a ++ subNibbles table b := by
  obtain ⟨q, hq⟩ := h
  have hdiv : (a ++ b).length / 4 = q + b.length / 4 := by rw [List.length_append, hq]; omega
  have hleft : ∀ k ∈ List.range q, nib (a ++ b) k = nib a k := fun k hk =>
    nib_append_left (by have := List.mem_range.mp hk; omega)
  have hwhole : subNibbles table a = (List.range q).flatMap (fun k => bitsK 4 (lookup table (nib a k))) := by
    simp [subNibbles, Config.nibbleBits, hq]
  have htail : (a ++ b).drop (4 * (q + b.length / 4)) = b.drop (4 * (b.length / 4)) := by
    rw [Nat.mul_add, ← hq, List.drop_length_add_append]
  rw [hwhole, subNibbles, subNibbles]
  simp only [Config.nibbleBits]
  rw [hdiv, htail, List.range_add, List.flatMap_append, List.flatMap_map, List.append_assoc]
  simp only [nib_append_right hq]
  congr 1
  exact List.flatMap_congr fun k hk => by rw [hleft k hk]

/-- Substitution commutes with a shift by whole nibbles of a vector of whole nibbles. -/
theorem rotate_subNibbles (table : List Nat) {s : Bits} {m : Nat} (hs : 4 ∣ s.length) (hm : 4 ∣ m)
    (hle : m ≤ s.length) : (subNibbles table s).rotate m = subNibbles table (s.rotate m) := by
  have htake : 4 ∣ (s.take m).length := by rwa [List.length_take_of_le hle]
  have hdrop : 4 ∣ (s.drop m).length := by rw [List.length_drop]; exact Nat.dvd_sub hs hm
  have hlen : (subNibbles table (s.take m)).length = m := by rw [length_subNibbles, List.length_take_of_le hle]
  calc (subNibbles table s).rotate m
      = (subNibbles table (s.take m) ++ subNibbles table (s.drop m)).rotate m := by
        rw [← subNibbles_append table _ htake, List.take_append_drop]
    _ = subNibbles table (s.drop m) ++ subNibbles table (s.take m) := by
        simpa only [hlen] using List.rotate_append_length_eq (subNibbles table (s.take m)) _
    _ = subNibbles table (s.rotate m) := by
        rw [← subNibbles_append table _ hdrop, List.rotate_eq_drop_append_take hle]

/-! ### The rounds of DERIVE (R139) -/

/-- Each step commutes with the shift. Depends on RC_BITS and NIBBLE_BITS (R7). -/
theorem rotate_deriveStep (p : Params) (sel lvl r : Nat) (pos : Position) {s : Bits} {m : Nat} (hs : 8 ∣ s.length)
    (hm : 8 ∣ m) (hle : m ≤ s.length) :
    (deriveStep p sel lvl r pos s).rotate m = deriveStep p sel lvl r pos (s.rotate m) := by
  cases pos with
  | step1 =>
    have hlen : (bitsK Config.rcBits (roundConstant sel lvl r)).length = 8 := length_bitsK ..
    simp only [deriveStep]
    rw [rotate_xorVec (length_tile ..).symm, rotate_tile (hlen.symm ▸ hs) (hlen.symm ▸ hm), List.length_rotate]
  | step2 => exact rotate_subNibbles p.sbox (Nat.dvd_trans (by decide) hs) (Nat.dvd_trans (by decide) hm) hle
  | step3 =>
    simp only [deriveStep, rotation]
    rw [rotl_mod_length, rotl_mod_length, rotate_comm]
  | step4 => exact rotate_feedback s m

theorem rotate_deriveRound (p : Params) (sel lvl r : Nat) {s : Bits} {m : Nat} (hs : 8 ∣ s.length) (hm : 8 ∣ m)
    (hle : m ≤ s.length) : (deriveRound p sel lvl s r).rotate m = deriveRound p sel lvl (s.rotate m) r := by
  simp [deriveRound, rotate_deriveStep, hs, hm, hle]

@[simp] theorem length_deriveRound (p : Params) (sel lvl r : Nat) (s : Bits) :
    (deriveRound p sel lvl s r).length = s.length := by simp [deriveRound]

theorem rotate_foldl_deriveRound (p : Params) (sel lvl : Nat) (rounds : List Nat) {s : Bits} {m : Nat}
    (hs : 8 ∣ s.length) (hm : 8 ∣ m) (hle : m ≤ s.length) :
    (rounds.foldl (deriveRound p sel lvl) s).rotate m = rounds.foldl (deriveRound p sel lvl) (s.rotate m) := by
  induction rounds generalizing s with
  | nil => rfl
  | cons r rounds ih =>
    rw [List.foldl_cons, List.foldl_cons, ← rotate_deriveRound p sel lvl r hs hm hle]
    exact ih (by rwa [length_deriveRound]) (by rwa [length_deriveRound])

/-! ### The key (R145) -/

/-- The expansion consists of copies of the combined seed. -/
theorem rotate_deriveInitial (p : Params) {ops : DeriveOperands} (hseed : ops.seed.length = ops.n) {m : Nat}
    (hm : ops.n ∣ m) : (deriveInitial p ops).rotate m = deriveInitial p ops := by
  unfold deriveInitial
  split
  next => exact List.rotate_nil m
  next =>
    refine rotate_tile (Nat.dvd_mul_left ..) ?_
    rwa [length_combine, hseed]

/-- A shift by a multiple of the seed's length and of 8 leaves the key as it is. -/
theorem rotate_deriveKey (p : Params) {ops : DeriveOperands} (hseed : ops.seed.length = ops.n) {m : Nat}
    (hlen : 8 ∣ 4 * ops.n) (hm : 8 ∣ m) (hn : ops.n ∣ m) (hle : m ≤ 4 * ops.n) :
    (deriveKey p ops).rotate m = deriveKey p ops := by
  have hinitial : (deriveInitial p ops).length = 4 * ops.n := length_deriveInitial hseed
  rw [deriveKey, rotate_foldl_deriveRound p _ _ _ (hinitial.symm ▸ hlen) hm (hinitial.symm ▸ hle),
    rotate_deriveInitial p hseed hn]

/-- A vector that a cyclic shift leaves as it is repeats after that shift. -/
theorem getElem?_eq_of_rotate_eq {s : Bits} {m : Nat} (h : s.rotate m = s) {i : Nat} (hi : i < s.length) :
    s[i]? = s[(i + m) % s.length]? :=
  calc s[i]? = (s.rotate m)[i]? := by rw [h]
    _ = s[(i + m) % s.length]? := List.getElem?_rotate hi

/-- Settles O37: a shift by n, or by 2n where n is an odd multiple of 4, leaves the key as it is. -/
theorem derivedKeyIsPeriodic : Obligations.DerivedKeyIsPeriodic := by
  intro p ops hseed
  have hlen : (deriveKey p ops).length = 4 * ops.n := length_deriveKey p hseed
  refine ⟨fun hmod i hi => ?_, fun hmod i hi => ?_⟩
  · have hrot := rotate_deriveKey p hseed (m := ops.n) (by omega) (by omega) (Nat.dvd_refl _) (by omega)
    simpa only [hlen] using getElem?_eq_of_rotate_eq hrot (hlen.symm ▸ hi)
  · have hrot := rotate_deriveKey p hseed (m := 2 * ops.n) (by omega) (by omega) (Nat.dvd_mul_left ..) (by omega)
    simpa only [hlen] using getElem?_eq_of_rotate_eq hrot (hlen.symm ▸ hi)

end Sys2Proof.Machine
end

section
/-!
PROOFS. The steps of ENCRYPT and their inverses (spec/44_shared_primitives.md R200, R206, R214, R218): each undoes the
other, in both orders, on every vector.
-/

namespace Sys2Proof.Machine

/-! ### Whitening (R200) -/

theorem xor_xor_self_right (x y : Bool) : ((x ^^ y) ^^ y) = x := Bool.bne_self_right x y

theorem xorVec_xorVec_cancel {a b : Bits} (h : a.length = b.length) : xorVec (xorVec a b) b = a := by
  have hlen : (xorVec a b).length = a.length := length_xorVec_of_eq h
  refine List.ext_getElem (by rw [length_xorVec_of_eq (hlen.trans h), hlen]) fun i _ _ => ?_
  rw [getElem_xorVec, getElem_xorVec, xor_xor_self_right]

/-! ### The S-box and its inverse table -/

/-- Table `u` takes every nibble's image under table `t` back to the nibble, the image being a nibble too (R9). -/
def UndoesTable (u t : List Nat) : Prop := ∀ x, x < 16 → lookup t x < 16 ∧ lookup u (lookup t x) = x

theorem lookup_eq_getElem {t : List Nat} {x : Nat} (h : x < t.length) : lookup t x = t[x] :=
  List.getD_eq_getElem t 0 h

/-- Depends on SBOX_ENTRIES (R7). -/
theorem lookup_invTable (t : List Nat) {y : Nat} (h : y < 16) : lookup (invTable t) y = t.idxOf y := by
  have hlen : (invTable t).length = 16 := by simp [invTable, Config.sboxEntries]
  rw [lookup_eq_getElem (hlen.symm ▸ h)]
  simp [invTable]

/-- Depends on SBOX_ENTRIES (R7). -/
theorem invTable_undoes_sbox (p : Params) : UndoesTable (invTable p.sbox) p.sbox := by
  intro x hx
  obtain ⟨-, hperm, -⟩ := p.ok
  have hxlen : x < p.sbox.length := by rwa [hperm.length_eq, List.length_range]
  have himage : p.sbox[x] < 16 := List.mem_range.mp (hperm.mem_iff.mp (List.getElem_mem hxlen))
  have hnodup : p.sbox.Nodup := hperm.nodup_iff.mpr List.nodup_range
  rw [lookup_eq_getElem hxlen, lookup_invTable p.sbox himage]
  exact ⟨himage, hnodup.idxOf_getElem x hxlen⟩

/-- Depends on SBOX_ENTRIES (R7). -/
theorem sbox_undoes_invTable (p : Params) : UndoesTable p.sbox (invTable p.sbox) := by
  intro y hy
  obtain ⟨-, hperm, -⟩ := p.ok
  have hmem : y ∈ p.sbox := hperm.mem_iff.mpr (List.mem_range.mpr hy)
  have hindex : p.sbox.idxOf y < p.sbox.length := List.idxOf_lt_length_of_mem hmem
  rw [lookup_invTable p.sbox hy, lookup_eq_getElem hindex]
  exact ⟨by rwa [hperm.length_eq, List.length_range] at hindex, List.getElem_idxOf hindex⟩

/-! ### Substitution (R204, R206) -/

/-- Depends on NIBBLE_BITS (R7). -/
theorem subNibbles_of_length_lt (t : List Nat) {s : Bits} (h : s.length < 4) : subNibbles t s = s := by
  simp [subNibbles, Config.nibbleBits, Nat.div_eq_of_lt h]

/-- Depends on NIBBLE_BITS (R7). -/
theorem subNibbles_nibble (t : List Nat) {a : Bits} (h : a.length = 4) :
    subNibbles t a = bitsK 4 (lookup t (val a)) := by
  simp [subNibbles, nib, Config.nibbleBits, h, List.take_of_length_le, List.drop_of_length_le]

theorem subNibbles_nibble_undo {u t : List Nat} (hundo : UndoesTable u t) {a : Bits} (h : a.length = 4) :
    subNibbles u (subNibbles t a) = a := by
  have hval : val a < 2 ^ 4 := h ▸ val_lt_two_pow_length a
  obtain ⟨himage, hback⟩ := hundo (val a) hval
  calc subNibbles u (subNibbles t a) = bitsK 4 (lookup u (val (bitsK 4 (lookup t (val a))))) := by
        rw [subNibbles_nibble t h, subNibbles_nibble u (length_bitsK ..)]
    _ = bitsK 4 (val a) := by rw [val_bitsK, Nat.mod_eq_of_lt (show _ < 2 ^ 4 from himage), hback]
    _ = a := h ▸ bitsK_length_val a

/-- The first nibble is substituted apart from the rest, and a partial nibble is left as it is. -/
theorem subNibbles_undo {u t : List Nat} (hundo : UndoesTable u t) (s : Bits) : subNibbles u (subNibbles t s) = s := by
  induction hn : s.length using Nat.strong_induction_on generalizing s with
  | h n ih =>
    obtain hshort | hlong := Nat.lt_or_ge s.length 4
    · rw [subNibbles_of_length_lt t hshort, subNibbles_of_length_lt u hshort]
    · have htake : (s.take 4).length = 4 := List.length_take_of_le hlong
      have hdrop : (s.drop 4).length < n := by rw [List.length_drop]; omega
      have hwhole : 4 ∣ (subNibbles t (s.take 4)).length := by rw [length_subNibbles, htake]
      calc subNibbles u (subNibbles t s)
          = subNibbles u (subNibbles t (s.take 4 ++ s.drop 4)) := by rw [List.take_append_drop]
        _ = subNibbles u (subNibbles t (s.take 4)) ++ subNibbles u (subNibbles t (s.drop 4)) := by
            rw [subNibbles_append t _ (htake.symm ▸ Nat.dvd_refl 4), subNibbles_append u _ hwhole]
        _ = s.take 4 ++ s.drop 4 := by rw [subNibbles_nibble_undo hundo htake, ih _ hdrop _ rfl]
        _ = s := List.take_append_drop ..

/-! ### Cascades (R214) -/

theorem invFwdCascadeFrom_fwdCascadeFrom (prev : Bool) (s : Bits) :
    invFwdCascadeFrom prev (fwdCascadeFrom prev s) = s := by
  induction s generalizing prev with
  | nil => rfl
  | cons x s ih => simp [fwdCascadeFrom, invFwdCascadeFrom, ih]

theorem fwdCascadeFrom_invFwdCascadeFrom (prev : Bool) (s : Bits) :
    fwdCascadeFrom prev (invFwdCascadeFrom prev s) = s := by
  induction s generalizing prev with
  | nil => rfl
  | cons x s ih => simp [fwdCascadeFrom, invFwdCascadeFrom, ih]

@[simp] theorem invFwdCascade_fwdCascade (s : Bits) : invFwdCascade (fwdCascade s) = s := by
  cases s with
  | nil => rfl
  | cons x s => exact congrArg (x :: ·) (invFwdCascadeFrom_fwdCascadeFrom x s)

@[simp] theorem fwdCascade_invFwdCascade (s : Bits) : fwdCascade (invFwdCascade s) = s := by
  cases s with
  | nil => rfl
  | cons x s => exact congrArg (x :: ·) (fwdCascadeFrom_invFwdCascadeFrom x s)

/-- An element before others takes the first of their cascaded values. -/
theorem bwdCascade_cons_of_eq_cons {x y : Bool} {s ys : Bits} (h : bwdCascade s = y :: ys) :
    bwdCascade (x :: s) = (x ^^ y) :: y :: ys := by rw [bwdCascade, h]

@[simp] theorem invBwdCascade_bwdCascade (s : Bits) : invBwdCascade (bwdCascade s) = s := by
  induction s with
  | nil => rfl
  | cons x s ih =>
    cases h : bwdCascade s with
    | nil =>
      rw [h] at ih
      subst ih
      rfl
    | cons y ys => rw [bwdCascade_cons_of_eq_cons h, invBwdCascade, ← h, ih, xor_xor_self_right]

@[simp] theorem bwdCascade_invBwdCascade (s : Bits) : bwdCascade (invBwdCascade s) = s := by
  induction s with
  | nil => rfl
  | cons x s ih =>
    cases s with
    | nil => rfl
    | cons y ys => rw [invBwdCascade, bwdCascade_cons_of_eq_cons ih, xor_xor_self_right]

/-! ### Transposition (R216 to R218) -/

theorem lt_of_getElem?_perm {L k i : Nat} (h : (perm L)[k]? = some i) : k < L ∧ i < L := by
  obtain ⟨hk, -⟩ := List.getElem?_eq_some_iff.mp h
  exact ⟨length_perm L ▸ hk, mem_perm.mp (List.mem_of_getElem? h)⟩

theorem getElem?_transpose {s : Bits} {k i : Nat} (h : (perm s.length)[k]? = some i) : (transpose s)[k]? = s[i]? := by
  obtain ⟨-, hi⟩ := lt_of_getElem?_perm h
  simp [transpose, h, hi]

theorem getElem?_invTranspose {s : Bits} {k i : Nat} (h : (perm s.length)[k]? = some i) :
    (invTranspose s)[i]? = s[k]? := by
  obtain ⟨hk, hi⟩ := lt_of_getElem?_perm h
  obtain ⟨hklen, rfl⟩ := List.getElem?_eq_some_iff.mp h
  have hindex := (nodup_perm s.length).idxOf_getElem k hklen
  simp [invTranspose, hi, hindex, hk]

@[simp] theorem invTranspose_transpose (s : Bits) : invTranspose (transpose s) = s := by
  refine List.ext_getElem?' fun i hi => ?_
  obtain ⟨k, hk⟩ := List.mem_iff_getElem?.mp (mem_perm (L := s.length).mpr (by simpa using hi))
  rw [getElem?_invTranspose (by rwa [length_transpose]), getElem?_transpose hk]

@[simp] theorem transpose_invTranspose (s : Bits) : transpose (invTranspose s) = s := by
  refine List.ext_getElem?' fun k hk => ?_
  have hklen : k < (perm s.length).length := by simpa using hk
  have h := List.getElem?_eq_getElem hklen
  rw [getElem?_transpose (by rwa [length_invTranspose]), getElem?_invTranspose h]

end Sys2Proof.Machine
end

section
/-!
PROOFS. ENCRYPT and DECRYPT as functions of their operands (spec/42_forward_transform.md R167, R169,
spec/43_inverse_transform.md R186, R188): a round of one is undone by a round of the other.
-/

namespace Sys2Proof.Machine

/-! ### One round (R166, R181) -/

theorem decryptRound_encryptRound (p : Params) : Function.LeftInverse (decryptRound p) (encryptRound p) := by
  intro s
  simp [decryptRound, encryptRound, decryptStep, encryptStep, subNibbles_undo (invTable_undoes_sbox p)]

theorem encryptRound_decryptRound (p : Params) : Function.LeftInverse (encryptRound p) (decryptRound p) := by
  intro s
  simp [decryptRound, encryptRound, decryptStep, encryptStep, subNibbles_undo (sbox_undoes_invTable p)]

/-! ### All rounds (R167, R186) -/

theorem finalWork_encrypt (p : Params) (ops : TransformOperands) :
    (Job.encrypt ops).finalWork p = (encryptRound p)^[Config.roundsEnc] (xorVec ops.text ops.key) :=
  (List.foldl_const (encryptRound p) (xorVec ops.text ops.key) (List.range Config.roundsEnc)).trans
    (by rw [List.length_range])

theorem finalWork_decrypt (p : Params) (ops : TransformOperands) :
    (Job.decrypt ops).finalWork p = (decryptRound p)^[Config.roundsEnc] ops.text :=
  (List.foldl_const (decryptRound p) ops.text (List.range Config.roundsEnc)).trans (by rw [List.length_range])

theorem encryptBlock_eq_finalWork (p : Params) (ops : TransformOperands) :
    encryptBlock p ops = (Job.encrypt ops).finalWork p := rfl

theorem decryptBlock_eq_xorVec (p : Params) (ops : TransformOperands) :
    decryptBlock p ops = xorVec ((Job.decrypt ops).finalWork p) ops.key := rfl

theorem length_finalWork (p : Params) (j : Job) : (j.finalWork p).length = (j.initial p).length := length_workAt ..

theorem length_encryptBlock (p : Params) {ops : TransformOperands} (h : ops.key.length = ops.text.length) :
    (encryptBlock p ops).length = ops.text.length :=
  (length_finalWork p (.encrypt ops)).trans (length_xorVec_of_eq h.symm)

theorem length_finalWork_decrypt (p : Params) (ops : TransformOperands) :
    ((Job.decrypt ops).finalWork p).length = ops.text.length := length_finalWork p (.decrypt ops)

theorem length_decryptBlock (p : Params) {ops : TransformOperands} (h : ops.key.length = ops.text.length) :
    (decryptBlock p ops).length = ops.text.length := by
  have hwork := length_finalWork_decrypt p ops
  rw [decryptBlock_eq_xorVec, length_xorVec_of_eq (hwork.trans h.symm), hwork]

/-- The rounds of DECRYPT take the ciphertext back to the whitened block. Depends on SBOX_ENTRIES and COLS (R7). -/
theorem decryptBlock_encryptBlock (p : Params) (n : Nat) {k m : Bits} (h : k.length = m.length) :
    decryptBlock p ⟨n, k, encryptBlock p ⟨n, k, m⟩⟩ = m := by
  rw [decryptBlock_eq_xorVec, finalWork_decrypt, encryptBlock_eq_finalWork, finalWork_encrypt,
    (decryptRound_encryptRound p).iterate, xorVec_xorVec_cancel h.symm]

/-- Whitening restores what DECRYPT's rounds left, and the rounds of ENCRYPT take it back to the ciphertext. Depends on
SBOX_ENTRIES and COLS (R7). -/
theorem encryptBlock_decryptBlock (p : Params) (n : Nat) {k c : Bits} (h : k.length = c.length) :
    encryptBlock p ⟨n, k, decryptBlock p ⟨n, k, c⟩⟩ = c := by
  have hwork : ((Job.decrypt ⟨n, k, c⟩).finalWork p).length = k.length :=
    (length_finalWork_decrypt p ⟨n, k, c⟩).trans h.symm
  rw [encryptBlock_eq_finalWork, finalWork_encrypt, decryptBlock_eq_xorVec, xorVec_xorVec_cancel hwork,
    finalWork_decrypt, (encryptRound_decryptRound p).iterate]

/-- Settles O49: DECRYPT inverts ENCRYPT on both sides, which gives injectivity and the preimage of each ciphertext. -/
theorem encryptionIsABijection : Obligations.EncryptionIsABijection := by
  intro p k
  refine ⟨fun m hm => ?_, fun m m' hm hm' heq => ?_, fun c hc => ?_⟩
  · exact (length_encryptBlock p hm.symm).trans hm
  · calc m = decryptBlock p ⟨k.length, k, encryptBlock p ⟨k.length, k, m⟩⟩ :=
          (decryptBlock_encryptBlock p _ hm.symm).symm
      _ = m' := by rw [heq, decryptBlock_encryptBlock p _ hm'.symm]
  · exact ⟨decryptBlock p ⟨k.length, k, c⟩, (length_decryptBlock p hc.symm).trans hc,
      encryptBlock_decryptBlock p _ hc.symm, rfl⟩

end Sys2Proof.Machine
end

section
/-!
PROOFS. ENCRYPT and DECRYPT from their issue to their completion (spec/42_forward_transform.md R168, R170,
spec/43_inverse_transform.md R190): what an accepted transform writes to DATA_BUF, and that nothing else changes.
-/

namespace Sys2Proof.Machine

/-! ### The output buffer after a completion (R44, R282) -/

theorem finishedWith_mem (s : State) (j : Job) :
    (s.finishedWith j).mem =
      s.mem.set j.outputBuffer (Buffer.putVec (s.mem.get j.outputBuffer) 0 (j.result s.cfg)) := by
  cases j <;> rfl

/-- A command's result lies in its output buffer from element 0, and the elements after it are untouched. -/
theorem element_outputBuffer_finishedWith (s : State) (j : Job) (i : Nat) :
    (s.finishedWith j).element j.outputBuffer i =
      if i < (j.result s.cfg).length then (j.result s.cfg)[i]? else s.element j.outputBuffer i := by
  rw [State.element, finishedWith_mem, Memory.get_set_same, bit_putVec]
  simp only [Nat.zero_le, true_and, Nat.zero_add, Nat.sub_zero]
  rfl

/-- A command whose output goes to DATA_BUF writes no register but STATUS and no other buffer. -/
theorem finishedWith_dataBuf_frame {s : State} (hidle : s.phase = .idle) {j : Job} (hbuf : j.outputBuffer = .dataBuf) :
    s.finishedWith j = { s with
      status := ⟨true, false, false, 0#4⟩
      mem    := { s.mem with dataBuf := (s.finishedWith j).mem.dataBuf } } := by
  rw [hidle]
  cases j with
  | derive ops => exact nomatch hbuf
  | encrypt ops => rfl
  | decrypt ops => rfl

/-- An empty result leaves every buffer as it was. -/
theorem finishedWith_of_empty_result {s : State} (hidle : s.phase = .idle) {j : Job}
    (hbuf : j.outputBuffer = .dataBuf) (hres : j.result s.cfg = []) :
    s.finishedWith j = { s with status := ⟨true, false, false, 0#4⟩ } := by
  have hdata : (s.finishedWith j).mem.dataBuf = s.mem.dataBuf := by
    rw [finishedWith_mem, hbuf, hres, putVec_nil]
    rfl
  rw [finishedWith_dataBuf_frame hidle hbuf, hdata]

/-! ### The operands of the transforms (R102) -/

theorem transformOps_key_length (s : State) : s.transformOps.key.length = s.keyLen.toNat := length_elements ..

theorem transformOps_text_length (s : State) : s.transformOps.text.length = s.keyLen.toNat := length_elements ..

theorem transformOps_lengths_eq (s : State) : s.transformOps.key.length = s.transformOps.text.length :=
  (transformOps_key_length s).trans (transformOps_text_length s).symm

theorem length_encryptBlock_transformOps (s : State) :
    (encryptBlock s.cfg s.transformOps).length = s.keyLen.toNat :=
  (length_encryptBlock s.cfg (transformOps_lengths_eq s)).trans (transformOps_text_length s)

theorem length_decryptBlock_transformOps (s : State) :
    (decryptBlock s.cfg s.transformOps).length = s.keyLen.toNat :=
  (length_decryptBlock s.cfg (transformOps_lengths_eq s)).trans (transformOps_text_length s)

/-! ### The acceptance (R280, R281) -/

theorem transformOps_current {s : State} (h : s.transformable) :
    s.transformCheck = none ∧ s.transformOperands = .ok s.transformOps := by
  obtain ⟨-, heq, hlen, hkey, htext⟩ := h
  have hcheck : s.transformCheck = none := transformCheck_eq_none_iff.mpr ⟨hlen, heq ▸ hlen, by rw [heq]⟩
  exact ⟨hcheck, transformOperands_of_defined hkey htext⟩

theorem exec_encrypt_of_transformable {s : State} (h : s.transformable) :
    exec .encrypt s = .next (s.started (.encrypt s.transformOps)) := (transformsAreAcceptedWithTheirOperands s h).1

theorem exec_decrypt_of_transformable {s : State} (h : s.transformable) :
    exec .decrypt s = .next (s.started (.decrypt s.transformOps)) := (transformsAreAcceptedWithTheirOperands s h).2

/-! ### The effect of ENCRYPT (R168) -/

theorem element_dataBuf_finishedWith_encrypt {s : State} (h : s.transformable) (i : Nat) :
    (s.finishedWith (.encrypt s.transformOps)).element .dataBuf i =
      if i < s.dataLen.toNat then (encryptBlock s.cfg s.transformOps)[i]? else s.element .dataBuf i := by
  obtain ⟨-, heq, -⟩ := h
  rw [← heq, ← length_encryptBlock_transformOps s]
  exact element_outputBuffer_finishedWith s (.encrypt s.transformOps) i

/-- Settles O17: the run of an accepted ENCRYPT, its output read element by element. -/
theorem encryptWritesCiphertextAtCompletion : Obligations.EncryptWritesCiphertextAtCompletion := by
  intro s hs hinbox
  have hcurrent : (Job.encrypt s.transformOps).current s := transformOps_current hs
  have ⟨hidle, heq, _⟩ := hs
  exact ⟨s.started (.encrypt s.transformOps), s.finishedWith (.encrypt s.transformOps),
    exec_encrypt_of_transformable hs,
    runsTo_finishedWith hinbox hcurrent,
    fun k hk => started_busy_until_completion hinbox hcurrent hk,
    heq ▸ length_encryptBlock_transformOps s,
    fun i hi => (element_dataBuf_finishedWith_encrypt hs i).trans (if_pos hi),
    fun i hi => (element_dataBuf_finishedWith_encrypt hs i).trans (if_neg (Nat.not_lt.mpr hi)),
    finishedWith_dataBuf_frame hidle rfl,
    finishedWith_regValue_status s _⟩

/-! ### Empty operands (R170, R190) -/

theorem transformable_of_empty {s : State} (hidle : s.phase = .idle) (hkey : s.keyLen = 0#32)
    (hdata : s.dataLen = 0#32) : s.transformable := by
  have hzero : uint32 s.keyLen = 0 := by rw [hkey]; rfl
  exact ⟨hidle, hkey.trans hdata.symm, by omega, fun j hj => by omega, fun j hj => by omega⟩

/-- Settles O19: both results have the operands' length 0, and the empty result writes no element of DATA_BUF. -/
theorem emptyTransformsAreNoOps : Obligations.EmptyTransformsAreNoOps := by
  intro i s hi hidle hkey hdata hinbox
  have hs := transformable_of_empty hidle hkey hdata
  have hzero : s.keyLen.toNat = 0 := by rw [hkey]; rfl
  obtain rfl | rfl := hi
  · have hres := List.eq_nil_of_length_eq_zero ((length_encryptBlock_transformOps s).trans hzero)
    exact ⟨_, _, exec_encrypt_of_transformable hs,
      runsTo_finishedWith (j := .encrypt s.transformOps) hinbox (transformOps_current hs),
      finishedWith_of_empty_result hidle rfl hres⟩
  · have hres := List.eq_nil_of_length_eq_zero ((length_decryptBlock_transformOps s).trans hzero)
    exact ⟨_, _, exec_decrypt_of_transformable hs,
      runsTo_finishedWith (j := .decrypt s.transformOps) hinbox (transformOps_current hs),
      finishedWith_of_empty_result hidle rfl hres⟩

end Sys2Proof.Machine
end

section
/-!
PROOFS. DECRYPT (spec/43_inverse_transform.md R188, R189): it is the inverse of ENCRYPT, and what an accepted DECRYPT
writes to DATA_BUF.
-/

namespace Sys2Proof.Machine

/-- Settles O48: a round of each undoes a round of the other, and the whitening cancels itself. -/
theorem encryptionAndDecryptionRoundTrip : Obligations.EncryptionAndDecryptionRoundTrip :=
  fun p _ m h => ⟨decryptBlock_encryptBlock p m.length h, encryptBlock_decryptBlock p m.length h⟩

/-! ### The effect of DECRYPT (R189) -/

theorem element_dataBuf_finishedWith_decrypt {s : State} (h : s.transformable) (i : Nat) :
    (s.finishedWith (.decrypt s.transformOps)).element .dataBuf i =
      if i < s.dataLen.toNat then (decryptBlock s.cfg s.transformOps)[i]? else s.element .dataBuf i := by
  obtain ⟨-, heq, -⟩ := h
  rw [← heq, ← length_decryptBlock_transformOps s]
  exact element_outputBuffer_finishedWith s (.decrypt s.transformOps) i

/-- Settles O18: the run of an accepted DECRYPT, its output read element by element. -/
theorem decryptWritesBlockAtCompletion : Obligations.DecryptWritesBlockAtCompletion := by
  intro s hs hinbox
  have hcurrent : (Job.decrypt s.transformOps).current s := transformOps_current hs
  have ⟨hidle, heq, _⟩ := hs
  exact ⟨s.started (.decrypt s.transformOps), s.finishedWith (.decrypt s.transformOps),
    exec_decrypt_of_transformable hs,
    runsTo_finishedWith hinbox hcurrent,
    fun k hk => started_busy_until_completion hinbox hcurrent hk,
    heq ▸ length_decryptBlock_transformOps s,
    fun i hi => (element_dataBuf_finishedWith_decrypt hs i).trans (if_pos hi),
    fun i hi => (element_dataBuf_finishedWith_decrypt hs i).trans (if_neg (Nat.not_lt.mpr hi)),
    finishedWith_dataBuf_frame hidle rfl,
    finishedWith_regValue_status s _⟩

end Sys2Proof.Machine
end

section
/-!
PROOFS. ENCRYPT and then DECRYPT, each issued by a write of CMD and completed by the engine's turns
(spec/43_inverse_transform.md R188, spec/70_reset_and_hazards.md R280, R282): every buffer is restored.
-/

namespace Sys2Proof.Machine

/-! ### A command performed from its CMD write to its completion (R280, R282) -/

/-- With no event to come the machine's steps are turns of the engine, so a run is those turns performed. -/
theorem perform_engine_of_runsTo {k : Nat} {s t : State} (hinbox : s.inbox = []) (hrun : RunsTo k s t) :
    s.perform (List.replicate k .engine) = some t := by
  induction k generalizing s with
  | zero => cases hrun; rfl
  | succ k ih =>
    obtain ⟨u, hstep, hrun⟩ := runsTo_succ_inv hrun
    have hturn : applyEvent s .engine = .next u := (step_nil hinbox).symm.trans hstep
    exact perform_cons_iff.mpr ⟨u, hturn, ih ((applyEvent_inbox hturn).trans hinbox) hrun⟩

theorem perform_command {s : State} {i : Instr} {j : Job} (hinbox : s.inbox = []) (hj : j.current s)
    (hexec : exec i s = .next (s.started j)) :
    s.perform (.access (cmdWrite (encode i)) :: List.replicate j.turns .engine) = some (s.finishedWith j) := by
  have hwrite : applyEvent s (.access (cmdWrite (encode i))) = .next (s.started j) :=
    calc hostAccess s (cmdWrite (encode i)) = issueWord s (encode i) := hostAccess_cmdWrite s _
      _ = exec i s := issueWord_of_decode (decode_encode i)
      _ = .next (s.started j) := hexec
  exact perform_cons_iff.mpr ⟨_, hwrite, perform_engine_of_runsTo hinbox (runsTo_finishedWith hinbox hj)⟩

/-! ### The operands of DECRYPT after ENCRYPT (R188, R281) -/

/-- The state in which an ENCRYPT issued in `s` has completed. -/
def State.encrypted (s : State) : State := s.finishedWith (.encrypt s.transformOps)

/-- The state in which a DECRYPT issued in `s` has completed. -/
def State.decrypted (s : State) : State := s.finishedWith (.decrypt s.transformOps)

theorem defined_putVec (b : Buffer) (v : Bits) : Buffer.defined (Buffer.putVec b 0 v) v.length :=
  fun j hj => ⟨v[j], by simp [bit_putVec, hj]⟩

theorem elements_putVec (b : Buffer) (v : Bits) : Buffer.elements (Buffer.putVec b 0 v) v.length = v :=
  List.ext_getElem (length_elements ..) fun i _ hi => by simp [Buffer.elements, bit_putVec, hi]

/-- ENCRYPT leaves its ciphertext where DECRYPT takes its text, so DECRYPT may run next. -/
theorem transformable_encrypted {s : State} (h : s.transformable) : s.encrypted.transformable := by
  obtain ⟨-, heq, hlen, hkey, -⟩ := h
  have hcipher := defined_putVec s.mem.dataBuf (encryptBlock s.cfg s.transformOps)
  rw [length_encryptBlock_transformOps] at hcipher
  exact ⟨rfl, heq, hlen, hkey, hcipher⟩

theorem transformOps_encrypted (s : State) :
    s.encrypted.transformOps =
      ⟨s.transformOps.len, s.transformOps.key, encryptBlock s.cfg s.transformOps⟩ := by
  have hcipher := elements_putVec s.mem.dataBuf (encryptBlock s.cfg s.transformOps)
  rw [length_encryptBlock_transformOps] at hcipher
  exact congrArg (TransformOperands.mk _ _) hcipher

theorem decryptBlock_encrypted (s : State) :
    decryptBlock s.encrypted.cfg s.encrypted.transformOps = s.transformOps.text := by
  rw [transformOps_encrypted]
  exact decryptBlock_encryptBlock s.cfg _ (transformOps_lengths_eq s)

/-! ### ENCRYPT, then DECRYPT (R188) -/

theorem element_finishedWith_of_ne (s : State) (j : Job) {b : BufferName} (h : b ≠ j.outputBuffer) (i : Nat) :
    (s.finishedWith j).element b i = s.element b i := by
  rw [State.element, finishedWith_mem, Memory.get_set_other _ _ h]
  rfl

/-- The vector of a defined range holds the buffer's elements. -/
theorem getElem?_elements {b : Buffer} {n i : Nat} (h : Buffer.defined b n) (hi : i < n) :
    (Buffer.elements b n)[i]? = Buffer.bit b i := by
  obtain ⟨x, hx⟩ := h i hi
  simp [Buffer.elements, hi, hx]

/-- Below the length the block comes back; above it and in the other buffers neither command writes. -/
theorem element_encrypted_decrypted {s : State} (h : s.transformable) (b : BufferName) (i : Nat) :
    s.encrypted.decrypted.element b i = s.element b i := by
  by_cases hb : b = .dataBuf
  · subst hb
    have hdecrypted := element_dataBuf_finishedWith_decrypt (transformable_encrypted h) i
    obtain hlt | hge := Nat.lt_or_ge i s.dataLen.toNat
    · have ⟨_, heq, _, _, htext⟩ := h
      have hkeyLen : i < uint32 s.keyLen := heq.symm ▸ hlt
      calc s.encrypted.decrypted.element .dataBuf i
          = (decryptBlock s.encrypted.cfg s.encrypted.transformOps)[i]? := hdecrypted.trans (if_pos hlt)
        _ = s.transformOps.text[i]? := by rw [decryptBlock_encrypted]
        _ = s.element .dataBuf i := getElem?_elements htext hkeyLen
    · calc s.encrypted.decrypted.element .dataBuf i
          = s.encrypted.element .dataBuf i := hdecrypted.trans (if_neg (Nat.not_lt.mpr hge))
        _ = s.element .dataBuf i :=
          (element_dataBuf_finishedWith_encrypt h i).trans (if_neg (Nat.not_lt.mpr hge))
  · exact (element_finishedWith_of_ne s.encrypted (.decrypt s.encrypted.transformOps) hb i).trans
      (element_finishedWith_of_ne s (.encrypt s.transformOps) hb i)

theorem encrypted_decrypted_frame {s : State} (hidle : s.phase = .idle) :
    s.encrypted.decrypted =
      { s with status := ⟨true, false, false, 0#4⟩, mem := s.encrypted.decrypted.mem } := by
  rw [hidle]
  rfl

/-- The host's two CMD writes with the turns each command takes (log 8). -/
theorem perform_encrypt_decrypt {s : State} (hinbox : s.inbox = []) (h : s.transformable) :
    s.perform (.access (cmdWrite (encode .encrypt)) ::
        List.replicate (Job.turns (.encrypt s.transformOps)) .engine ++
      .access (cmdWrite (encode .decrypt)) ::
        List.replicate (Job.turns (.decrypt s.encrypted.transformOps)) .engine) = some s.encrypted.decrypted := by
  have hnext := transformable_encrypted h
  have hencrypt := perform_command (j := .encrypt s.transformOps) hinbox (transformOps_current h)
    (exec_encrypt_of_transformable h)
  have hdecrypt := perform_command (s := s.encrypted) (j := .decrypt s.encrypted.transformOps) hinbox
    (transformOps_current hnext) (exec_decrypt_of_transformable hnext)
  rw [perform_append, hencrypt]
  exact hdecrypt

/-- The events to come, performed, are the machine's run until none is left. -/
theorem runsTo_of_perform_inbox {s t : State} (ht : t.inbox = [])
    (h : (s.withInbox []).perform s.inbox = some t) : RunsTo s.inbox.length s t := by
  have hrun := (perform_eq_some_iff_runsTo (s := s.withInbox []) ht s.inbox []).mp h
  rw [List.append_nil] at hrun
  calc Sys2Proof.core.run s.inbox.length s = .next (t.withInbox []) := hrun
    _ = .next t := by rw [← ht]; rfl

/-- Settles O20: the two commands performed are the machine's run over its inbox, and the block comes back. -/
theorem encryptThenDecryptRestoresTheBuffers : Obligations.EncryptThenDecryptRestoresTheBuffers := by
  intro s hs hinbox
  have hs' : (s.withInbox []).transformable := hs
  have hperform : (s.withInbox []).perform s.inbox = some (s.withInbox []).encrypted.decrypted :=
    hinbox ▸ perform_encrypt_decrypt rfl hs'
  exact ⟨(s.withInbox []).encrypted.decrypted, runsTo_of_perform_inbox rfl hperform,
    element_encrypted_decrypted hs', encrypted_decrypted_frame hs'.1⟩

end Sys2Proof.Machine
end

section
/-!
PROOFS. Substitution on its nibbles (spec/44_shared_primitives.md R203, R204, R206): a vector is cut at a nibble, which
is substituted apart from what stands before and after it.
-/

namespace Sys2Proof.Machine

/-! ### Nibble `k` of a vector (R203) -/

theorem exists_nibble {s : Bits} {k : Nat} (h : 4 * (k + 1) ≤ s.length) :
    ∃ a b c : Bits, s = a ++ (b ++ c) ∧ a.length = 4 * k ∧ b.length = 4 := by
  refine ⟨s.take (4 * k), (s.drop (4 * k)).take 4, (s.drop (4 * k)).drop 4, ?_, ?_, ?_⟩
  · rw [List.take_append_drop, List.take_append_drop]
  · exact List.length_take_of_le (by omega)
  · exact List.length_take_of_le (by rw [List.length_drop]; omega)

/-- Depends on NIBBLE_BITS (R7). -/
theorem nib_append_append {a b : Bits} {k : Nat} (ha : a.length = 4 * k) (hb : b.length = 4) (c : Bits) :
    nib (a ++ (b ++ c)) k = val b := by
  have hfirst : nib (b ++ c) 0 = val b := by simp [nib, Config.nibbleBits, ← hb]
  exact (nib_append_right ha 0).trans hfirst

theorem val_four (w x y z : Bool) : val [w, x, y, z] = 8 * w.toNat + 4 * x.toNat + 2 * y.toNat + z.toNat := by
  simp only [val, List.foldl_cons, List.foldl_nil]
  omega

/-- The weights of R203. -/
theorem nib_eq_weighted_sum {s : Bits} {k : Nat} (h : 4 * (k + 1) ≤ s.length) :
    nib s k = 8 * (s.getD (4 * k) false).toNat + 4 * (s.getD (4 * k + 1) false).toNat +
      2 * (s.getD (4 * k + 2) false).toNat + (s.getD (4 * k + 3) false).toNat := by
  obtain ⟨a, b, c, rfl, ha, hb⟩ := exists_nibble h
  obtain ⟨w, x, y, z, rfl⟩ := List.length_eq_four.mp hb
  rw [nib_append_append ha hb, val_four, ← ha]
  simp

/-! ### Substitution (R204, R206) -/

theorem lookup_lt {table : List Nat} (htable : ∀ x ∈ table, x < 16) (y : Nat) : lookup table y < 16 := by
  obtain hy | hy := Nat.lt_or_ge y table.length
  · exact lookup_eq_getElem hy ▸ htable _ (List.getElem_mem hy)
  · rw [lookup, List.getD_eq_default _ _ hy]
    decide

theorem nib_subNibbles {table : List Nat} (htable : ∀ x ∈ table, x < 16) {s : Bits} {k : Nat}
    (h : 4 * (k + 1) ≤ s.length) : nib (subNibbles table s) k = lookup table (nib s k) := by
  obtain ⟨a, b, c, rfl, ha, hb⟩ := exists_nibble h
  have himage : lookup table (val b) < 2 ^ 4 := lookup_lt htable _
  calc nib (subNibbles table (a ++ (b ++ c))) k
      = nib (subNibbles table a ++ (subNibbles table b ++ subNibbles table c)) k := by
        rw [subNibbles_append table _ (ha ▸ Nat.dvd_mul_right ..), subNibbles_append table _ (hb ▸ Nat.dvd_refl _)]
    _ = val (subNibbles table b) :=
        nib_append_append ((length_subNibbles ..).trans ha) ((length_subNibbles ..).trans hb) _
    _ = lookup table (val b) := by rw [subNibbles_nibble table hb, val_bitsK, Nat.mod_eq_of_lt himage]
    _ = lookup table (nib (a ++ (b ++ c)) k) := by rw [nib_append_append ha hb]

/-- The elements after the last full nibble stand. Depends on NIBBLE_BITS (R7). -/
theorem drop_subNibbles (table : List Nat) (s : Bits) :
    (subNibbles table s).drop (4 * (s.length / 4)) = s.drop (4 * (s.length / 4)) := by
  have hwhole : (s.take (4 * (s.length / 4))).length = 4 * (s.length / 4) := List.length_take_of_le (by omega)
  have hpartial : (s.drop (4 * (s.length / 4))).length < 4 := by rw [List.length_drop]; omega
  have hsplit := subNibbles_append table (s.drop (4 * (s.length / 4))) (Dvd.intro _ hwhole.symm)
  rw [List.take_append_drop, subNibbles_of_length_lt table hpartial] at hsplit
  rw [hsplit, List.drop_left' ((length_subNibbles ..).trans hwhole)]

/-- Settles O39: a full nibble is substituted apart from the rest, and the rest after the last one stands. -/
theorem substitutionReplacesEachFullNibble : Obligations.SubstitutionReplacesEachFullNibble := by
  intro table s htable
  refine ⟨length_subNibbles table s, fun k hk => ?_, drop_subNibbles table s⟩
  have hfull : 4 * (k + 1) ≤ s.length := by omega
  exact ⟨nib_subNibbles htable hfull, nib_eq_weighted_sum hfull⟩

/-- Settles O40: each table undoes the other on every nibble. -/
theorem substitutionIsInvertible : Obligations.SubstitutionIsInvertible :=
  fun p s => ⟨subNibbles_undo (invTable_undoes_sbox p) s, subNibbles_undo (sbox_undoes_invTable p) s⟩

end Sys2Proof.Machine
end

section
/-!
PROOFS. Rotation and the circular feedback (spec/44_shared_primitives.md R207 to R209), both read through the library's
cyclic shift, and the XOR of all elements of a vector.
-/

namespace Sys2Proof.Machine

/-! ### Elements (R207, R208) -/

theorem getElem?_rotl {s : Bits} {k i : Nat} (hk : k < s.length) (hi : i < s.length) :
    (rotl s k)[i]? = s[(i + k) % s.length]? :=
  calc (rotl s k)[i]? = (s.rotate k)[i]? := by rw [← rotl_mod_length, Nat.mod_eq_of_lt hk]
    _ = s[(i + k) % s.length]? := List.getElem?_rotate hi

theorem getElem?_feedback {s : Bits} {i : Nat} (hi : i < s.length) :
    (feedback s)[i]? = some (s.getD i false ^^ s.getD ((i + s.length - 1) % s.length) false) := by
  have hprev : (i + (s.length - 1)) % s.length < s.length := Nat.mod_lt _ (by omega)
  rw [Nat.add_sub_assoc (by omega), feedback_eq_xorVec_rotate, xorVec, List.getElem?_zipWith,
    List.getElem?_rotate hi, List.getElem?_eq_getElem hi, List.getElem?_eq_getElem hprev,
    List.getD_eq_getElem _ _ hi, List.getD_eq_getElem _ _ hprev]

theorem feedback_singleton (x : Bool) : feedback [x] = [false] := by cases x <;> rfl

/-- Settles O41: element i of a cyclic shift by k is s[(i + k) mod L], and the feedback shifts by L - 1. -/
theorem rotationAndFeedbackElements : Obligations.RotationAndFeedbackElements :=
  ⟨fun s k _ hk hi => ⟨getElem?_rotl hk hi, length_rotl s k⟩,
   fun s _ hi => ⟨length_feedback s, getElem?_feedback hi⟩,
   feedback_singleton⟩

/-! ### The XOR of all elements -/

theorem xor_xor_xor_comm (w x y z : Bool) : ((w ^^ x) ^^ (y ^^ z)) = ((w ^^ y) ^^ (x ^^ z)) := by
  rw [Bool.xor_assoc, Bool.xor_left_comm x, ← Bool.xor_assoc]

/-- The XOR of all elements of a vector, as the statements write it out. -/
def xorAll (s : Bits) : Bool := s.foldl Bool.xor false

@[simp] theorem xorAll_nil : xorAll [] = false := rfl

@[simp] theorem xorAll_cons (x : Bool) (s : Bits) : xorAll (x :: s) = (x ^^ xorAll s) := by
  simpa [xorAll] using List.foldl_assoc (op := Bool.xor) (l := s) (a₁ := x) (a₂ := false)

theorem xorAll_xorVec {a b : Bits} (h : a.length = b.length) : xorAll (xorVec a b) = (xorAll a ^^ xorAll b) := by
  induction a generalizing b with
  | nil => rw [List.length_eq_zero_iff.mp h.symm]; rfl
  | cons x a ih =>
    cases b with
    | nil => cases h
    | cons y b =>
      have htail : xorAll (xorVec a b) = (xorAll a ^^ xorAll b) := ih (Nat.succ.inj h)
      calc xorAll (xorVec (x :: a) (y :: b)) = ((x ^^ y) ^^ xorAll (xorVec a b)) := xorAll_cons ..
        _ = (xorAll (x :: a) ^^ xorAll (y :: b)) := by rw [htail, xor_xor_xor_comm, xorAll_cons, xorAll_cons]

theorem xorAll_rotate (s : Bits) (m : Nat) : xorAll (s.rotate m) = xorAll s := by
  have : RightCommutative Bool.xor := ⟨Bool.xor_right_comm⟩
  exact (List.rotate_perm s m).foldl_eq false

/-! ### Feedback as a linear map (R209) -/

theorem xorVec_xorVec_comm (a b c d : Bits) :
    xorVec (xorVec a b) (xorVec c d) = xorVec (xorVec a c) (xorVec b d) := by
  refine List.ext_getElem ?_ fun i _ _ => ?_
  · simp only [length_xorVec]
    omega
  · simp only [getElem_xorVec]
    exact xor_xor_xor_comm ..

theorem feedback_xorVec {a b : Bits} (h : a.length = b.length) :
    feedback (xorVec a b) = xorVec (feedback a) (feedback b) := by
  rw [feedback_eq_xorVec_rotate, rotate_xorVec h, length_xorVec_of_eq h, xorVec_xorVec_comm,
    feedback_eq_xorVec_rotate a, feedback_eq_xorVec_rotate b, h]

theorem xorVec_map_not (a b : Bits) : xorVec (a.map not) (b.map not) = xorVec a b := by
  simp [xorVec, List.zipWith_map]

theorem feedback_map_not (s : Bits) : feedback (s.map not) = feedback s := by
  rw [feedback_eq_xorVec_rotate, ← List.map_rotate, xorVec_map_not, List.length_map, ← feedback_eq_xorVec_rotate]

theorem feedback_replicate_false (L : Nat) : feedback (List.replicate L false) = List.replicate L false := by
  rw [feedback_eq_xorVec_rotate, List.rotate_replicate, xorVec, List.zipWith_replicate, Nat.min_self]
  rfl

/-- Every element enters the feedback twice. -/
theorem xorAll_feedback (s : Bits) : xorAll (feedback s) = false := by
  rw [feedback_eq_xorVec_rotate, xorAll_xorVec (List.length_rotate ..).symm, xorAll_rotate, Bool.xor_self]

/-- Settles O42: the feedback is the XOR of a vector with a cyclic shift of itself. -/
theorem feedbackIsLinearAndForgetsComplement : Obligations.FeedbackIsLinearAndForgetsComplement :=
  ⟨fun _ _ => feedback_xorVec, feedback_map_not, feedback_replicate_false, xorAll_feedback⟩

end Sys2Proof.Machine
end

section
/-!
PROOFS. The cascades as the XOR of the elements up to an index and from it on, and the closed form of their composition
(spec/44_shared_primitives.md R210, R211, R214, spec/42_forward_transform.md R171).
-/

namespace Sys2Proof.Machine

/-! ### The elements of the cascades (R210, R211) -/

theorem getElem?_fwdCascadeFrom (prev : Bool) {s : Bits} {i : Nat} (h : i < s.length) :
    (fwdCascadeFrom prev s)[i]? = some (prev ^^ xorAll (s.take (i + 1))) := by
  induction s generalizing prev i with
  | nil => cases h
  | cons x s ih =>
    cases i with
    | zero => simp [fwdCascadeFrom, Bool.xor_comm]
    | succ i =>
      have htail := ih (x ^^ prev) (Nat.lt_of_succ_lt_succ h)
      rw [fwdCascadeFrom, List.getElem?_cons_succ, htail, List.take_succ_cons, xorAll_cons, ← Bool.xor_assoc,
        Bool.xor_comm x]

/-- The first element is updated like the others, from 0. -/
theorem fwdCascade_eq_fwdCascadeFrom (s : Bits) : fwdCascade s = fwdCascadeFrom false s := by
  cases s with
  | nil => rfl
  | cons x s => simp [fwdCascade, fwdCascadeFrom]

theorem getElem?_fwdCascade {s : Bits} {i : Nat} (h : i < s.length) :
    (fwdCascade s)[i]? = some (xorAll (s.take (i + 1))) := by
  rw [fwdCascade_eq_fwdCascadeFrom, getElem?_fwdCascadeFrom false h, Bool.false_xor]

theorem bwdCascade_cons (x : Bool) (s : Bits) : bwdCascade (x :: s) = xorAll (x :: s) :: bwdCascade s := by
  induction s generalizing x with
  | nil => simp [bwdCascade]
  | cons y s ih => rw [bwdCascade_cons_of_eq_cons (ih y), ih y, xorAll_cons x]

theorem getElem?_bwdCascade {s : Bits} {i : Nat} (h : i < s.length) :
    (bwdCascade s)[i]? = some (xorAll (s.drop i)) := by
  induction s generalizing i with
  | nil => cases h
  | cons x s ih =>
    rw [bwdCascade_cons]
    cases i with
    | zero => rfl
    | succ i => exact ih (Nat.lt_of_succ_lt_succ h)

/-- Settles O43: the running value of each cascade is the XOR of the elements it has passed. -/
theorem cascadesArePrefixAndSuffixXor : Obligations.CascadesArePrefixAndSuffixXor :=
  fun s _ h => ⟨getElem?_fwdCascade h, getElem?_bwdCascade h, length_fwdCascade s, length_bwdCascade s⟩

/-- Settles O44: each inverse takes off the one neighbour that its cascade put on, or the reverse. -/
theorem cascadesAreInvertible : Obligations.CascadesAreInvertible :=
  fun s => ⟨invFwdCascade_fwdCascade s, fwdCascade_invFwdCascade s, invBwdCascade_bwdCascade s,
    bwdCascade_invBwdCascade s⟩

/-! ### The XOR of the elements at selected indices -/

/-- The XOR of the elements of `a` whose index meets `p`, as the closed form writes it out. -/
def xorWhere (a : Bits) (p : Nat → Bool) : Bool :=
  ((List.range a.length).filter p).foldl (fun x j => x ^^ a.getD j false) false

theorem xorWhere_eq_xorAll (a : Bits) (p : Nat → Bool) :
    xorWhere a p = xorAll (((List.range a.length).filter p).map (a.getD · false)) := List.foldl_map.symm

theorem xorWhere_congr {a : Bits} {p q : Nat → Bool} (h : ∀ j, j < a.length → p j = q j) :
    xorWhere a p = xorWhere a q := by
  rw [xorWhere, List.filter_congr fun j hj => h j (List.mem_range.mp hj), xorWhere]

theorem xorWhere_cons (x : Bool) (a : Bits) (p : Nat → Bool) :
    xorWhere (x :: a) p = ((p 0 && x) ^^ xorWhere a (fun j => p (j + 1))) := by
  have htail : ((List.map Nat.succ (List.range a.length)).filter p).map ((x :: a).getD · false) =
      ((List.range a.length).filter (fun j => p (j + 1))).map (a.getD · false) := by
    rw [List.filter_map, List.map_map]
    rfl
  rw [xorWhere_eq_xorAll, xorWhere_eq_xorAll, List.length_cons, List.range_succ_eq_map, List.filter_cons]
  cases p 0 with
  | false => simpa using congrArg xorAll htail
  | true => simpa using congrArg xorAll htail

theorem xorWhere_false (a : Bits) : xorWhere a (fun _ => false) = false := by
  simp [xorWhere]

/-- An element selected by both drops out. -/
theorem xorWhere_xor (a : Bits) (p q : Nat → Bool) :
    xorWhere a (fun j => p j ^^ q j) = (xorWhere a p ^^ xorWhere a q) := by
  induction a generalizing p q with
  | nil => rfl
  | cons x a ih =>
    rw [xorWhere_cons, xorWhere_cons, xorWhere_cons, ih, Bool.and_xor_distrib_right, xor_xor_xor_comm]

theorem xorAll_take (a : Bits) (n : Nat) : xorAll (a.take n) = xorWhere a (fun j => decide (j < n)) := by
  induction a generalizing n with
  | nil => rw [List.take_nil]; rfl
  | cons x a ih =>
    cases n with
    | zero => simpa using (xorWhere_false (x :: a)).symm
    | succ n => simp [xorWhere_cons, ih]

/-! ### The two cascades of a round (R171) -/

/-- The indices of the closed form: those `j` that an odd number of the forward cascade's elements from `i` on
contain. -/
def closedFormIndex (L i j : Nat) : Bool := decide ((L - max i j) % 2 = 1)

/-- Index `j` changes sides between `i + 1` and `i` exactly if element `i` of the forward cascade contains it. -/
theorem closedFormIndex_of_lt {L i : Nat} (h : i < L) (j : Nat) :
    closedFormIndex L i j = (decide (j < i + 1) ^^ closedFormIndex L (i + 1) j) := by
  unfold closedFormIndex
  obtain hj | hj := Nat.lt_or_ge j (i + 1)
  · have hmax : L - max i j = L - (i + 1) + 1 := by omega
    have hmax' : max (i + 1) j = i + 1 := by omega
    rw [hmax, hmax', decide_eq_true hj, Bool.true_xor, ← decide_not, decide_eq_decide]
    omega
  · have hmax : max i j = max (i + 1) j := by omega
    rw [hmax, decide_eq_false (Nat.not_lt.mpr hj), Bool.false_xor]

/-- Each step down from the end adds one element of the forward cascade. -/
theorem xorAll_drop_fwdCascade (a : Bits) {i : Nat} (h : i ≤ a.length) :
    xorAll ((fwdCascade a).drop i) = xorWhere a (closedFormIndex a.length i) := by
  induction h using Nat.decreasingInduction with
  | self =>
    have hnone : ∀ j, j < a.length → closedFormIndex a.length a.length j = false := fun j hj => by
      simp [closedFormIndex, Nat.max_eq_left hj.le]
    rw [List.drop_of_length_le (length_fwdCascade a).le, xorWhere_congr hnone, xorWhere_false]
    rfl
  | of_succ i hi ih =>
    have hlen : i < (fwdCascade a).length := (length_fwdCascade a).symm ▸ hi
    have hvalue : (fwdCascade a)[i] = xorAll (a.take (i + 1)) :=
      Option.some.inj ((List.getElem?_eq_getElem hlen).symm.trans (getElem?_fwdCascade hi))
    rw [List.drop_eq_getElem_cons hlen, xorAll_cons, hvalue, ih, xorAll_take, ← xorWhere_xor]
    exact xorWhere_congr fun j _ => (closedFormIndex_of_lt hi j).symm

/-- Settles O45: the backward cascade adds up elements of the forward one, of which L - max(i, j) contain a[j]. -/
theorem cascadePairHasTheClosedForm : Obligations.CascadePairHasTheClosedForm := by
  intro a i h
  have hlen : i < (fwdCascade a).length := (length_fwdCascade a).symm ▸ h
  rw [getElem?_bwdCascade hlen, xorAll_drop_fwdCascade a h.le]
  rfl

end Sys2Proof.Machine
end

section
/-!
PROOFS. The columnar transposition (spec/44_shared_primitives.md R215 to R218): the columns of the grid, written out,
and their place in the transposition order.
-/

namespace Sys2Proof.Machine

/-! ### Vectors made of blocks -/

/-- Element `r` of block `c` stands after the blocks before it. -/
theorem getElem?_flatMap_range {α : Type} (f : Nat → List α) {m c r : Nat} (hc : c < m) (hr : r < (f c).length) :
    ((List.range m).flatMap f)[((List.range c).map (fun d => (f d).length)).sum + r]? = (f c)[r]? := by
  induction m with
  | zero => cases hc
  | succ m ih =>
    have hsplit : (List.range (m + 1)).flatMap f = (List.range m).flatMap f ++ f m := by
      rw [List.range_succ, List.flatMap_append, List.flatMap_singleton]
    rw [hsplit]
    obtain hlt | rfl := Nat.lt_succ_iff_lt_or_eq.mp hc
    · have hplace := ih hlt
      have hinside := (List.getElem?_eq_some_iff.mp (hplace.trans (List.getElem?_eq_getElem hr))).1
      rw [List.getElem?_append_left hinside, hplace]
    · rw [← List.length_flatMap, List.getElem?_append_right (Nat.le_add_right ..), Nat.add_sub_cancel_left]

/-! ### The columns of the grid (R215) -/

theorem pairwise_lt_cells (n c : Nat) : ((List.range n).map (4 * · + c)).Pairwise (· < ·) :=
  List.pairwise_map.mpr (List.pairwise_lt_range.imp fun _ => by omega)

/-- The cells of a column below `L`, top to bottom: both lists increase and have the same members. Depends on COLS
(R7). -/
theorem column_eq_map_range {L c : Nat} (hc : c < 4) :
    column L c = (List.range ((L - c + 3) / 4)).map (4 * · + c) := by
  have hcolumn : (column L c).Pairwise (· < ·) := (pairwise_lt_cells _ c).filter _
  refine hcolumn.eq_of_mem_iff (pairwise_lt_cells _ c) fun i => ?_
  simp only [mem_column hc, List.mem_map, List.mem_range, Config.cols]
  constructor
  · rintro ⟨hi, hmod⟩
    exact ⟨i / 4, by omega, by omega⟩
  · rintro ⟨r, hr, rfl⟩
    omega

theorem length_column {L c : Nat} (hc : c < 4) : (column L c).length = (L - c + 3) / 4 := by
  rw [column_eq_map_range hc, List.length_map, List.length_range]

/-- Depends on COLS (R7). -/
theorem getElem?_column {L c r : Nat} (hc : c < 4) (h : 4 * r + c < L) : (column L c)[r]? = some (4 * r + c) := by
  have hr : r < (L - c + 3) / 4 := by omega
  rw [column_eq_map_range hc, List.getElem?_map, List.getElem?_range hr]
  rfl

/-! ### The transposition order (R215) -/

theorem perm_perm_range (L : Nat) : (perm L).Perm (List.range L) :=
  (List.perm_ext_iff_of_nodup (nodup_perm L) List.nodup_range).mpr fun _ => mem_perm.trans List.mem_range.symm

/-- Depends on COLS (R7). -/
theorem getElem?_perm {L c r : Nat} (hc : c < 4) (h : 4 * r + c < L) :
    (perm L)[((List.range c).map (fun d => (L - d + 3) / 4)).sum + r]? = some (4 * r + c) := by
  have hsizes : (List.range c).map (fun d => (L - d + 3) / 4) = (List.range c).map (fun d => (column L d).length) :=
    List.map_congr_left fun d hd => (length_column ((List.mem_range.mp hd).trans hc)).symm
  have hr : r < (column L c).length := by rw [length_column hc]; omega
  rw [hsizes]
  exact (getElem?_flatMap_range (column L) hc hr).trans (getElem?_column hc h)

/-- A grid of one row is read as it is filled. Depends on COLS (R7). -/
theorem perm_of_le_four {L : Nat} (h : L ≤ 4) : perm L = List.range L := by
  have hrow : ∀ L < 5, perm L = List.range L := by decide
  exact hrow L (Nat.lt_succ_of_le h)

/-- Settles O46: perm_L is made of the columns, each the multiples of 4 plus its number. -/
theorem transpositionOrderIsColumnByColumn : Obligations.TranspositionOrderIsColumnByColumn :=
  fun L => ⟨perm_perm_range L, fun _ _ => getElem?_perm, perm_of_le_four⟩

/-- Settles O47: what one gathers from place perm[k] the other scatters to it. -/
theorem transpositionIsInvertible : Obligations.TranspositionIsInvertible :=
  fun s => ⟨fun _ _ h => ⟨getElem?_transpose h, getElem?_invTranspose h⟩, length_transpose s, length_invTranspose s,
    invTranspose_transpose s, transpose_invTranspose s⟩

end Sys2Proof.Machine
end

section
/-!
PROOFS. The errors of a command and the races of the host with the engine (spec/60_exceptions.md R241 to R245, R248,
R251): which check rejects a command, what an undefined operand element does, and a write beside a completion.
-/

namespace Sys2Proof.Machine

/-! ### What each check finds (R241, R242, R244) -/

theorem deriveCheck_eq_some_iff {s : State} {e : ErrorCode} :
    s.deriveCheck = some e ↔ e = .lengthRange ∧ s.cfg.sMax < s.seedLen.toNat := by
  simp only [State.deriveCheck, uint32]
  split_ifs with hrange
  · simp [hrange, eq_comm]
  · simp [hrange]

/-- Depends on KEY_FACTOR (R7). -/
theorem transformCheck_eq_lengthRange_iff {s : State} :
    s.transformCheck = some .lengthRange ↔
      4 * s.cfg.sMax < s.keyLen.toNat ∨ 4 * s.cfg.sMax < s.dataLen.toNat := by
  unfold State.transformCheck
  split_ifs with hrange hne
  · exact iff_of_true rfl hrange
  · exact iff_of_false (by simp) hrange
  · exact iff_of_false (by simp) hrange

/-- Depends on KEY_FACTOR (R7). -/
theorem transformCheck_eq_lengthMismatch_iff {s : State} :
    s.transformCheck = some .lengthMismatch ↔
      s.keyLen ≠ s.dataLen ∧ s.keyLen.toNat ≤ 4 * s.cfg.sMax ∧ s.dataLen.toNat ≤ 4 * s.cfg.sMax := by
  unfold State.transformCheck
  split_ifs with hrange hne
  · exact iff_of_false (by simp) fun ⟨_, hkey, hdata⟩ => hrange.elim hkey.not_gt hdata.not_gt
  · obtain ⟨hkey, hdata⟩ := not_or.mp hrange
    exact iff_of_true rfl ⟨mt (congrArg uint32) hne, Nat.le_of_not_lt hkey, Nat.le_of_not_lt hdata⟩
  · exact iff_of_false (by simp) fun ⟨h, _⟩ => hne (mt BitVec.eq_of_toNat_eq h)

/-! ### A command is rejected exactly by its check (R243) -/

theorem ErrorCode.code_injective : Function.Injective ErrorCode.code := by
  intro e f h
  cases e <;> cases f
  case lengthMismatch.lengthMismatch | illegalCommand.illegalCommand | lengthRange.lengthRange => rfl
  all_goals exact absurd h (by decide)

theorem reject_inj {s : State} {e f : ErrorCode} (h : s.reject e = s.reject f) : e = f :=
  ErrorCode.code_injective (congrArg (fun t => t.status.ecode) h)

/-- While idle neither the acceptance nor another code gives the state of a rejection. -/
theorem issue_eq_reject_iff {s : State} (hidle : s.phase = .idle) {check : Option ErrorCode}
    {start : Except Fault Running} {e : ErrorCode} :
    issue s check start = .next (s.reject e) ↔ check = some e := by
  have hbusy := s.busy_of_idle hidle
  constructor
  · intro h
    obtain ⟨hb, -⟩ | ⟨-, f, hf, heq⟩ | ⟨-, -, r, -, heq⟩ := issue_next h
    · cases hbusy.symm.trans hb
    · rw [hf, reject_inj heq]
    · have hphase : s.phase = .running r := congrArg State.phase heq
      rw [hidle] at hphase
      cases hphase
  · rintro rfl
    exact issue_reject hbusy e start

theorem exec_derive_eq_reject_iff {s : State} (hidle : s.phase = .idle) {e : ErrorCode} :
    exec .derive s = .next (s.reject e) ↔ s.deriveCheck = some e := issue_eq_reject_iff hidle

theorem exec_transform_eq_reject_iff {s : State} (hidle : s.phase = .idle) {i : Instr}
    (hi : i = .encrypt ∨ i = .decrypt) {e : ErrorCode} :
    exec i s = .next (s.reject e) ↔ s.transformCheck = some e := by
  obtain rfl | rfl := hi
  · exact issue_eq_reject_iff hidle
  · exact issue_eq_reject_iff hidle

/-- Settles O7: a rejection is its check's, and the checks find LENGTH_RANGE beyond the capacity. -/
theorem lengthRangeIsRejectedExactlyBeyondCapacity : Obligations.LengthRangeIsRejectedExactlyBeyondCapacity :=
  fun _ hidle =>
    ⟨(exec_derive_eq_reject_iff hidle (e := .lengthRange)).trans (deriveCheck_eq_some_iff.trans (and_iff_right rfl)),
     fun _ hi => (exec_transform_eq_reject_iff hidle hi (e := .lengthRange)).trans transformCheck_eq_lengthRange_iff⟩

/-- An idle DERIVE that answers records LENGTH_RANGE or nothing. -/
theorem exec_derive_ecode {s t : State} (hidle : s.phase = .idle) (h : exec .derive s = .next t) :
    t.status.ecode = ErrorCode.lengthRange.code ∨ t.status.ecode = 0#4 := by
  obtain ⟨hb, -⟩ | ⟨-, e, hcheck, rfl⟩ | ⟨-, -, r, -, rfl⟩ := issue_next h
  · cases (s.busy_of_idle hidle).symm.trans hb
  · obtain ⟨rfl, -⟩ := deriveCheck_eq_some_iff.mp hcheck
    exact .inl rfl
  · exact .inr rfl

/-- Settles O8: the transforms' check finds a mismatch within range, and DERIVE's check knows no such error. -/
theorem lengthMismatchIsRejectedExactlyWithinRange : Obligations.LengthMismatchIsRejectedExactlyWithinRange := by
  intro s hidle
  refine ⟨fun i hi => ?_, fun t h => ?_⟩
  · exact (exec_transform_eq_reject_iff hidle hi (e := .lengthMismatch)).trans transformCheck_eq_lengthMismatch_iff
  · obtain hcode | hcode := exec_derive_ecode hidle h <;> rw [hcode] <;> decide

theorem issueWord_transform_reject {s : State} (hidle : s.phase = .idle) {w : Word} {e : ErrorCode}
    (hdecode : decode w = .command .encrypt ∨ decode w = .command .decrypt) (hcheck : s.transformCheck = some e) :
    issueWord s w = .next (s.reject e) := by
  obtain h | h := hdecode
  · exact (issueWord_of_decode h).trans ((exec_transform_eq_reject_iff hidle (.inl rfl)).mpr hcheck)
  · exact (issueWord_of_decode h).trans ((exec_transform_eq_reject_iff hidle (.inr rfl)).mpr hcheck)

/-- Settles O9: the decoder rejects an illegal word before any check, and a command's check looks at the range first. -/
theorem errorsAreReportedInPriorityOrder : Obligations.ErrorsAreReportedInPriorityOrder := by
  intro s w hidle
  refine ⟨fun hillegal => ?_, fun hderive hrange => ?_, fun htransform => ⟨fun hrange => ?_, fun hkey hdata hne => ?_⟩⟩
  · exact ⟨s.reject .illegalCommand, issueWord_reject hillegal (s.busy_of_idle hidle), rfl⟩
  · have hcheck := deriveCheck_eq_some_iff.mpr ⟨rfl, hrange⟩
    exact ⟨s.reject .lengthRange,
      (issueWord_of_decode hderive).trans ((exec_derive_eq_reject_iff hidle).mpr hcheck), rfl⟩
  · have hcheck := transformCheck_eq_lengthRange_iff.mpr hrange
    exact ⟨s.reject .lengthRange, issueWord_transform_reject hidle htransform hcheck, rfl⟩
  · have hcheck := transformCheck_eq_lengthMismatch_iff.mpr ⟨hne, hkey, hdata⟩
    exact ⟨s.reject .lengthMismatch, issueWord_transform_reject hidle htransform hcheck, rfl⟩

/-! ### All or nothing (R243, R245, R280) -/

theorem accept_regValue_status (s : State) (r : Running) : (s.accept r).regValue .status = 0x00000001#32 :=
  show Status.clear.word true = 0x00000001#32 by decide

/-- Settles O10: while idle the write is not dropped, so its word is rejected or its command accepted. -/
theorem commandIssueIsAllOrNothing : Obligations.CommandIssueIsAllOrNothing := by
  intro s t w hidle h
  obtain ⟨hb, -⟩ | ⟨-, e, rfl⟩ | ⟨-, j, rfl, -, -⟩ := issueWord_next h
  · cases (s.busy_of_idle hidle).symm.trans hb
  · exact .inr ⟨e, rfl⟩
  · exact .inl ⟨rfl, accept_regValue_status s _⟩

/-! ### Undefined operand elements (R41, R248) -/

/-- The fault of a vector's read names an undefined element of its range. -/
theorem vec_error_element {m : Memory} {n : BufferName} {L : Nat} {f : Fault} (h : m.vec n L = .error f) :
    ∃ j, f = .undefinedOperand n j ∧ j < L ∧ Buffer.bit (m.get n) j = none := by
  unfold Memory.vec at h
  split at h
  next j hj =>
    cases h
    obtain ⟨-, hlt, hnone, -⟩ := vecFrom_error hj
    exact ⟨j, rfl, by omega, hnone⟩
  next => cases h

theorem vec_ok_defined {m : Memory} {n : BufferName} {L : Nat} {v : Bits} (h : m.vec n L = .ok v) :
    Buffer.defined (m.get n) L := by
  by_contra hundefined
  obtain ⟨j, hj, -⟩ := vecFrom_of_not_defined hundefined
  simp [Memory.vec, hj] at h

theorem deriveOperands_error_element {s : State} {f : Fault} (h : s.deriveOperands = .error f) :
    ∃ j, f = .undefinedOperand .seedBuf j ∧ j < s.seedLen.toNat ∧ s.element .seedBuf j = none := by
  unfold State.deriveOperands at h
  split at h
  next hseed => cases h; exact vec_error_element hseed
  next => cases h

theorem transformOperands_error_element {s : State} {f : Fault} (h : s.transformOperands = .error f) :
    ∃ b j, f = .undefinedOperand b j ∧ (b = .keyBuf ∨ b = .dataBuf) ∧ j < s.keyLen.toNat ∧ s.element b j = none := by
  unfold State.transformOperands at h
  split at h
  next hkey => cases h; exact ⟨.keyBuf, (vec_error_element hkey).imp fun _ ⟨hf, hj⟩ => ⟨hf, .inl rfl, hj⟩⟩
  next =>
    split at h
    next htext => cases h; exact ⟨.dataBuf, (vec_error_element htext).imp fun _ ⟨hf, hj⟩ => ⟨hf, .inr rfl, hj⟩⟩
    next => cases h

theorem deriveOperands_ok_defined {s : State} {ops : DeriveOperands} (h : s.deriveOperands = .ok ops) :
    Buffer.defined s.mem.seedBuf s.seedLen.toNat := by
  unfold State.deriveOperands at h
  split at h
  next => cases h
  next hseed => exact vec_ok_defined hseed

theorem transformOperands_ok_defined {s : State} {ops : TransformOperands} (h : s.transformOperands = .ok ops) :
    Buffer.defined s.mem.keyBuf s.keyLen.toNat ∧ Buffer.defined s.mem.dataBuf s.keyLen.toNat := by
  unfold State.transformOperands at h
  split at h
  next => cases h
  next hkey =>
    split at h
    next => cases h
    next htext => exact ⟨vec_ok_defined hkey, vec_ok_defined htext⟩

/-- An idle engine ends a command whose check passes in the fault of its operands. -/
theorem issue_of_operands_error {α : Type} {s : State} {check : Option ErrorCode} {ops : Except Fault α} {f : Fault}
    (hidle : s.phase = .idle) (hcheck : check = none) (hops : ops = .error f) (start : α → Running) :
    issue s check (ops.map start) = .fault f := by
  subst hcheck hops
  exact issue_fault (s.busy_of_idle hidle) f

theorem exec_derive_of_undefined {s : State} (hidle : s.phase = .idle) (hlen : s.seedLen.toNat ≤ s.cfg.sMax)
    (hundefined : ¬ Buffer.defined s.mem.seedBuf s.seedLen.toNat) :
    ∃ f, exec .derive s = .fault f ∧ s.deriveOperands = .error f := by
  cases hops : s.deriveOperands with
  | ok ops => exact absurd (deriveOperands_ok_defined hops) hundefined
  | error f => exact ⟨f, issue_of_operands_error hidle (deriveCheck_eq_none_iff.mpr hlen) hops _, rfl⟩

/-- Depends on KEY_FACTOR (R7). -/
theorem exec_transform_of_undefined {s : State} (hidle : s.phase = .idle) {i : Instr}
    (hi : i = .encrypt ∨ i = .decrypt) (heq : s.keyLen = s.dataLen) (hlen : s.keyLen.toNat ≤ 4 * s.cfg.sMax)
    (hundefined : ¬ (Buffer.defined s.mem.keyBuf s.keyLen.toNat ∧ Buffer.defined s.mem.dataBuf s.keyLen.toNat)) :
    ∃ f, exec i s = .fault f ∧ s.transformOperands = .error f := by
  have hcheck : s.transformCheck = none := transformCheck_eq_none_iff.mpr ⟨hlen, heq ▸ hlen, by rw [heq]⟩
  cases hops : s.transformOperands with
  | ok ops => exact absurd (transformOperands_ok_defined hops) hundefined
  | error f =>
    refine ⟨f, ?_, rfl⟩
    obtain rfl | rfl := hi
    · exact issue_of_operands_error hidle hcheck hops encryptStart
    · exact issue_of_operands_error hidle hcheck hops decryptStart

theorem exec_fault_element {i : Instr} {s : State} {f : Fault} (h : exec i s = .fault f) :
    ∃ b j, f = .undefinedOperand b j ∧ s.element b j = none := by
  have htransform : s.transformOperands = .error f → ∃ b j, f = .undefinedOperand b j ∧ s.element b j = none := by
    intro hops
    obtain ⟨b, j, hf, -, -, hnone⟩ := transformOperands_error_element hops
    exact ⟨b, j, hf, hnone⟩
  cases i with
  | derive =>
    obtain ⟨j, hf, -, hnone⟩ := deriveOperands_error_element (operands_error_of_issue_fault h)
    exact ⟨.seedBuf, j, hf, hnone⟩
  | encrypt => exact htransform (operands_error_of_issue_fault h)
  | decrypt => exact htransform (operands_error_of_issue_fault h)

/-- Settles O12: past its check a command ends in the fault of its operands, which names the element it could not
read. -/
theorem undefinedOperandEndsTheCommand : Obligations.UndefinedOperandEndsTheCommand := by
  intro s hidle
  refine ⟨fun hlen hundefined => ?_, fun i hi heq hlen hundefined => ?_, fun i f => exec_fault_element⟩
  · obtain ⟨f, hexec, hops⟩ := exec_derive_of_undefined hidle hlen hundefined
    obtain ⟨j, rfl, hj⟩ := deriveOperands_error_element hops
    exact ⟨j, hexec, hj⟩
  · obtain ⟨f, hexec, hops⟩ := exec_transform_of_undefined hidle hi heq hlen hundefined
    obtain ⟨b, j, rfl, hj⟩ := transformOperands_error_element hops
    exact ⟨b, j, hexec, hj⟩

/-! ### A write and a completion in either order (R251, R282, R284) -/

theorem engineTurn_of_rounds_done {s : State} {r : Running} (hr : s.phase = .running r)
    (hdone : ¬ r.round < r.job.rounds) : s.engineTurn = s.complete r := by simp [State.engineTurn, hr, hdone]

/-- A dropped write and a completion commute: the one sets OVR, the other leaves it. -/
theorem complete_dropWrite (s : State) (r : Running) : s.dropWrite.complete r = (s.complete r).dropWrite := by
  obtain ⟨j, work, round, pos⟩ := r
  cases j <;> rfl

theorem runsTo_one_iff {s u : State} : RunsTo 1 s u ↔ step s = .next u := by
  rw [runsTo_succ_iff]
  constructor
  · rintro ⟨t, ht, ⟨⟩⟩
    exact ht
  · exact fun h => ⟨u, h, runsTo_zero u⟩

section WriteAndCompletion

variable {s : State} {r : Running} {a : Access} {t : Target} (hr : s.phase = .running r)
  (hdone : ¬ r.round < r.job.rounds) (hdir : a.dir = .write) (ht : accessTarget s.cfg a = some t)

include hr hdone hdir ht

theorem runsTo_write_then_completion (hinbox : s.inbox = [.access a, .engine]) :
    RunsTo 2 s ((s.complete r).dropWrite.withInbox []) := by
  have hdrop : step s = .next (s.dropWrite.withInbox [.engine]) :=
    calc step s = hostAccess (s.withInbox [.engine]) a := step_cons hinbox
      _ = hostWrite (s.withInbox [.engine]) t a.data := hostAccess_write (s := s.withInbox [.engine]) ht hdir
      _ = .next (s.dropWrite.withInbox [.engine]) :=
        hostWrite_busy (s := s.withInbox [.engine]) (s.busy_of_running hr) t a.data
  have hcomplete : step (s.dropWrite.withInbox [.engine]) = .next ((s.complete r).dropWrite.withInbox []) :=
    calc step (s.dropWrite.withInbox [.engine]) = .next (s.dropWrite.withInbox []).engineTurn :=
          step_withInbox_cons s.dropWrite .engine []
      _ = .next ((s.complete r).dropWrite.withInbox []) := by
        rw [engineTurn_withInbox, engineTurn_of_rounds_done (s := s.dropWrite) hr hdone, complete_dropWrite]
  exact runsTo_succ hdrop (runsTo_one_iff.mpr hcomplete)

theorem runsTo_completion_then_write_iff (hinbox : s.inbox = [.engine, .access a]) {u : State} :
    RunsTo 2 s u ↔ hostWrite ((s.complete r).withInbox []) t a.data = .next u := by
  have hcomplete : step s = .next ((s.complete r).withInbox [.access a]) :=
    calc step s = .next (s.withInbox [.access a]).engineTurn := step_cons hinbox
      _ = .next ((s.complete r).withInbox [.access a]) := by
        rw [engineTurn_withInbox, engineTurn_of_rounds_done hr hdone]
  have htarget : accessTarget ((s.complete r).withInbox []).cfg a = some t := by simpa using ht
  have hwrite : step ((s.complete r).withInbox [.access a]) = hostWrite ((s.complete r).withInbox []) t a.data :=
    (step_withInbox_cons _ _ _).trans (hostAccess_write htarget hdir)
  rw [runsTo_succ_iff, ← hwrite]
  simp [hcomplete, runsTo_one_iff]

end WriteAndCompletion

theorem writable_of_accessTarget {p : Params} {a : Access} {t : Target} (hdir : a.dir = .write)
    (h : accessTarget p a = some t) : t.writable = true := by
  unfold accessTarget at h
  split at h
  · have hpermits := (Option.filter_eq_some_iff.mp h).2
    rwa [hdir] at hpermits
  · cases h

theorem regValue_writeReg_same (s : State) {q : RegName} (hw : q.writable = true) (hq : q ≠ .cmd) (w : Word) :
    (s.writeReg q w).regValue q = w := by
  cases q
  case cmd => exact absurd rfl hq
  case seedLen | selector | level | keyLen | dataLen => rfl
  all_goals cases hw

/-- Settles O28: the completion is State.complete, before which the write is dropped and after which it meets an idle
engine. -/
theorem writeAndCompletionInEitherOrder : Obligations.WriteAndCompletionInEitherOrder := by
  rintro s c r a t hr hdone hdir ht rfl
  refine ⟨runsTo_write_then_completion hr hdone hdir ht, fun hinbox => ?_⟩
  have hiff := fun u => runsTo_completion_then_write_iff hr hdone hdir ht hinbox (u := u)
  have hidle : ((s.complete r).withInbox []).phase = .idle := rfl
  refine ⟨?_, ?_, ?_⟩
  · rintro q rfl hq
    exact ⟨(hiff _).mpr (hostWrite_reg_of_idle hidle hq a.data),
      regValue_writeReg_same _ (writable_of_accessTarget hdir ht) hq a.data⟩
  · rintro b k rfl
    exact (hiff _).mpr (hostWrite_word_of_idle hidle b k a.data)
  · rintro rfl
    rw [hostWrite_cmd] at hiff
    exact hiff

end Sys2Proof.Machine
end

section
/-!
PROOFS. Accesses while a command runs (spec/70_reset_and_hazards.md R281, R282, R284, R290): a host write is dropped and
leaves OVR as its only trace, so the command completes with the results of its operands at acceptance.
-/

namespace Sys2Proof.Machine

/-! ### Dropped writes and OVR (R284) -/

theorem decodeOffset_of_accessTarget {p : Params} {a : Access} {t : Target} (h : accessTarget p a = some t) :
    decodeOffset p a.off = some t := by
  by_cases hwf : a.wf
  · rw [accessTarget_of_wf hwf] at h
    exact (Option.filter_eq_some_iff.mp h).1
  · rw [accessTarget_of_not_wf hwf] at h
    cases h

theorem hostAccess_of_write_while_busy {s : State} {a : Access} {t : Target} (hb : s.busy = true)
    (hdir : a.dir = .write) (ht : accessTarget s.cfg a = some t) : hostAccess s a = .next s.dropWrite :=
  (hostAccess_write ht hdir).trans (hostWrite_busy hb t a.data)

/-- A CMD write while idle that answers a next state clears OVR, whether it rejects its command or accepts it. -/
theorem issueWord_clears_ovr {s t : State} {w : Word} (hb : s.busy = false) (h : issueWord s w = .next t) :
    t.status.ovr = false := by
  obtain ⟨hbusy, -⟩ | ⟨-, e, rfl⟩ | ⟨-, j, rfl, -⟩ := issueWord_next h
  · simp [hb] at hbusy
  · rfl
  · rfl

@[simp] theorem engineTurn_ovr (s : State) : s.engineTurn.status.ovr = s.status.ovr := by
  obtain ⟨-, h⟩ | ⟨r, -, -, h⟩ | ⟨r, -, -, h⟩ := engineTurn_cases s <;> rw [h]
  rfl

/-- Of the host accesses only a CMD write while idle clears OVR. -/
theorem cmdWrite_of_hostAccess_clears_ovr {s u : State} {a : Access} (h : hostAccess s a = .next u)
    (hset : s.status.ovr = true) (hclear : u.status.ovr = false) :
    s.busy = false ∧ a.dir = .write ∧ a.off = 0x008#14 := by
  have hchanged : u.status.ovr ≠ s.status.ovr := by simp [hset, hclear]
  obtain ⟨t, ht, ⟨-, rfl⟩ | ⟨hdir, hw⟩⟩ := hostAccess_next h
  · exact absurd rfl hchanged
  obtain ⟨-, rfl⟩ | ⟨hb, rfl, -⟩ | ⟨-, r, -, -, rfl⟩ | ⟨-, b, k, -, rfl⟩ := hostWrite_next hw
  · cases hclear
  · exact ⟨hb, hdir, eq_ofNat_of_decodeOffset (decodeOffset_of_accessTarget ht)⟩
  · exact absurd (congrArg Status.ovr (s.writeReg_status r a.data)) hchanged
  · exact absurd rfl hchanged

/-- Settles O21: reset and a CMD write while idle clear OVR, and every other event keeps it or sets it. -/
theorem writeWhileBusyIsDroppedAndSetsOvr : Obligations.WriteWhileBusyIsDroppedAndSetsOvr := by
  refine ⟨fun s a t => hostAccess_of_write_while_busy, fun s t e h hset hclear => ?_,
    fun s t w => issueWord_clears_ovr, fun s a h => ⟨_, hostAccess_fault_of_none h⟩⟩
  cases e with
  | access a =>
    obtain ⟨hb, hdir, hoff⟩ := cmdWrite_of_hostAccess_clears_ovr h hset hclear
    exact .inr ⟨hb, a, rfl, hdir, hoff⟩
  | engine =>
    cases h
    rw [engineTurn_ovr, hset] at hclear
    cases hclear
  | reset => exact .inl rfl

/-! ### A command on its way, among host accesses (R281, R284) -/

/-- The state `s` with the running command's sequencer at `r`, after accesses of which `wrote` says whether one was a
write. The words that the host read and the draw counter, the model's own, are those of `u`. -/
def State.midway (s : State) (r : Running) (wrote : Bool) (u : State) : State :=
  { s with
    status   := { s.status with ovr := s.status.ovr || wrote }
    phase    := .running r
    returned := u.returned
    draws    := u.draws }

/-- The sequencer `r'` is `r` after `k` turns: exact, for the same command, and `k` turns nearer to its end. -/
structure Running.After (s : State) (r : Running) (k : Nat) (r' : Running) : Prop where
  exact : r'.Exact s
  job   : r'.job = r.job
  left  : r'.turnsLeft = r.turnsLeft - k

/-- The event is a turn of the engine or an access that is no bus error. -/
def TurnOrMapped (p : Params) (e : Event) : Prop :=
  e = .engine ∨ ∃ a, e = .access a ∧ accessTarget p a ≠ none

theorem withRunning_eq_self {s : State} {r : Running} (hr : s.phase = .running r) : s.withRunning r = s := by
  rw [State.withRunning, ← hr]

theorem midway_false {s : State} {r : Running} (hr : s.phase = .running r) (u : State) :
    s.midway r false u = { s with returned := u.returned, draws := u.draws } := by
  rw [State.midway, Bool.or_false, ← hr]

theorem midway_true {s : State} {r : Running} (hr : s.phase = .running r) : s.midway r true s = s.dropWrite := by
  rw [State.midway, Bool.or_true, ← hr]
  rfl

theorem midway_midway (s : State) (r r' : Running) (wrote wrote' : Bool) (u u' : State) :
    (s.midway r wrote u).midway r' wrote' u' = s.midway r' (wrote || wrote') u' := by
  simp [State.midway, Bool.or_assoc]

theorem exact_midway_iff {s : State} {r q : Running} {wrote : Bool} {u : State} :
    q.Exact (s.midway r wrote u) ↔ q.Exact s :=
  ⟨fun h => h.frame s.status s.phase s.inbox s.returned s.draws, fun h => h.frame _ _ s.inbox u.returned u.draws⟩

theorem Running.Exact.round_lt {s : State} {r : Running} (h : r.Exact s) (hleft : 1 < r.turnsLeft) :
    r.round < r.job.rounds :=
  h.round.resolve_right fun ⟨hround, hpos⟩ => hleft.ne' (turnsLeft_of_finished hround hpos)

/-- Short of the completion, a turn moves the sequencer on and an access leaves at most its trace in OVR. -/
theorem applyEvent_midway {s : State} {r : Running} {e : Event} (hr : s.phase = .running r) (hexact : r.Exact s)
    (hcount : [e].count .engine < r.turnsLeft) (he : TurnOrMapped s.cfg e) :
    ∃ r' u, applyEvent s e = .next (s.midway r' (Event.isHostWrite e) u) ∧ r.After s ([e].count .engine) r' := by
  obtain rfl | ⟨a, rfl, hmapped⟩ := he
  · have hleft : 1 < r.turnsLeft := hcount
    have hround := hexact.round_lt hleft
    have hturn : s.engineTurn = s.midway (r.advance s.cfg) false s := by
      rw [← withRunning_eq_self hr, engineTurn_of_round_left hround, State.midway, Bool.or_false]
      rfl
    exact ⟨_, s, congrArg Host.Outcome.next hturn, hexact.advance hround, advance_job s.cfg r,
      turnsLeft_advance s.cfg hround⟩
  · obtain ⟨t, ht⟩ := Option.ne_none_iff_exists'.mp hmapped
    refine ⟨r, ?_⟩
    cases hdir : a.dir with
    | read =>
      have hread : hostAccess s a = .next (s.midway r false (s.answer (s.readTarget t))) := by
        rw [hostAccess_read ht hdir, midway_false hr]
        rfl
      have hnot : Event.isHostWrite (.access a) = false := by simp [Event.isHostWrite, hdir]
      exact ⟨_, hnot ▸ hread, hexact, rfl, rfl⟩
    | write =>
      have hdrop : hostAccess s a = .next (s.midway r true s) := by
        rw [hostAccess_of_write_while_busy (s.busy_of_running hr) hdir ht, midway_true hr]
      have hwrite : Event.isHostWrite (.access a) = true := by simp [Event.isHostWrite, hdir]
      exact ⟨_, hwrite ▸ hdrop, hexact, rfl, rfl⟩

theorem perform_midway {s : State} {r : Running} {evs : List Event} (hr : s.phase = .running r)
    (hexact : r.Exact s) (hcount : evs.count .engine < r.turnsLeft) (hevs : ∀ e ∈ evs, TurnOrMapped s.cfg e) :
    ∃ r' u, s.perform evs = some (s.midway r' (evs.any Event.isHostWrite) u) ∧
      r.After s (evs.count .engine) r' := by
  induction evs generalizing s r with
  | nil => exact ⟨r, s, congrArg some (midway_false hr s).symm, hexact, rfl, rfl⟩
  | cons e evs ih =>
    have hsplit : (e :: evs).count .engine = [e].count .engine + evs.count .engine := List.count_append (l₁ := [e])
    obtain ⟨he, hevs⟩ := List.forall_mem_cons.mp hevs
    obtain ⟨r₁, u₁, hevent, hafter⟩ := applyEvent_midway hr hexact (by omega) he
    have hleft := hafter.left
    obtain ⟨r', u', hperform, hafter'⟩ :=
      ih (s := s.midway r₁ (Event.isHostWrite e) u₁) rfl (exact_midway_iff.mpr hafter.exact) (by omega) hevs
    rw [midway_midway] at hperform
    refine ⟨r', u', perform_cons_iff.mpr ⟨_, hevent, hperform⟩, exact_midway_iff.mp hafter'.exact,
      hafter'.job.trans hafter.job, ?_⟩
    rw [hafter'.left]
    omega

/-! ### The completion after such events (R282) -/

/-- While a command runs, DONE, ERR and ECODE are 0 (R34). -/
theorem State.Inv.status_of_running {s : State} (h : s.Inv) {r : Running} (hr : s.phase = .running r) :
    s.status = ⟨false, false, s.status.ovr, 0#4⟩ := by
  have hdone : s.status.done = false := h.busyNotDone (s.busy_of_running hr)
  have herr : s.status.err = false := by
    rw [← Bool.not_eq_true]
    intro herr
    simp [h.errDone herr] at hdone
  have hecode : s.status.ecode = 0#4 := by
    by_contra hne
    simp [h.errIff.mpr hne] at herr
  calc s.status = ⟨s.status.done, s.status.err, s.status.ovr, s.status.ecode⟩ := rfl
    _ = ⟨false, false, s.status.ovr, 0#4⟩ := by rw [hdone, herr, hecode]

/-- The outputs read nothing that the events changed, and a completion keeps OVR. -/
theorem completed_midway {s : State} (h : s.Inv) {r : Running} (hr : s.phase = .running r) (r' : Running)
    (wrote : Bool) (u : State) (later : List Event) (j : Job) :
    { ((s.midway r' wrote u).withInbox later).outputs j with
      status := (s.midway r' wrote u).status.completed, phase := .idle } = s.completedWith j wrote later u := by
  have hstatus : (s.midway r' wrote u).status.completed = ⟨true, false, s.status.ovr || wrote, 0#4⟩ := by
    rw [State.midway, h.status_of_running hr]
    rfl
  rw [hstatus]
  cases j <;> rfl

/-- Settles O27: the events take the state midway, with the turns they did not take still missing, and the missing turns
complete the command there. -/
theorem hostAccessesCannotDisturbARunningCommand : Obligations.HostAccessesCannotDisturbARunningCommand := by
  intro s r evs hinv hr hcount hevs
  obtain ⟨-, -, -, hrun⟩ := State.inv_iff.mp hinv
  obtain ⟨r', u, hperform, hexact, hjob, hleft⟩ := perform_midway hr (hrun r hr) hcount hevs
  generalize evs.any Event.isHostWrite = wrote at hperform ⊢
  have hmidway : ∀ later, s.inbox = evs ++ later →
      RunsTo evs.length s ((s.midway r' wrote u).withInbox later) := fun later hinbox => by
    have hruns := (perform_eq_some_iff_runsTo (by rfl) evs later).mp hperform
    rwa [← hinbox] at hruns
  refine ⟨fun hinbox => ?_, fun later hinbox hlast => ?_⟩
  · have hexact' : r'.Exact ((s.midway r' wrote u).withInbox []) := hexact.frame _ _ [] u.returned u.draws
    have hcompletion := runsTo_completion (by rfl) hexact'
    rw [hleft, hjob] at hcompletion
    refine ⟨s.completedWith r.job wrote [] u, ?_, rfl⟩
    rw [← completed_midway hinv hr r']
    exact runsTo_add (hmidway [] (by simpa using hinbox)) hcompletion
  · have hfinished : r' = r.job.finished s.cfg := hjob ▸ hexact.eq_finished (by omega)
    have hturn : ((s.midway r' wrote u).withInbox later).engineTurn = s.completedWith r.job wrote later u := by
      rw [← completed_midway hinv hr r', hfinished]
      exact engineTurn_finished ((s.midway (r.job.finished s.cfg) wrote u).withInbox later) r.job
    have hstep := (step_withInbox_cons (s.midway r' wrote u) .engine later).trans (congrArg Host.Outcome.next hturn)
    exact ⟨_, runsTo_add (hmidway (.engine :: later) hinbox) (runsTo_one_iff.mpr hstep), rfl⟩

end Sys2Proof.Machine
end

section
/-!
PROOFS. The end of a program whose last command still runs (spec/70_reset_and_hazards.md R291): before its one access a
command that would be accepted still is, and after it the engine is busy.
-/

namespace Sys2Proof.Machine

/-- The engine is idle and accepts the command (R280). -/
def State.accepts (s : State) (i : Instr) : Prop := s.phase = .idle ∧ ∃ j, exec i s = .next (s.started j)

theorem accepts_derive {s : State} (h : s.derivable) : s.accepts .derive :=
  ⟨h.1, _, exec_derive_of_derivable h⟩

theorem accepts_encrypt {s : State} (h : s.transformable) : s.accepts .encrypt :=
  ⟨h.1, _, exec_encrypt_of_transformable h⟩

theorem accepts_decrypt {s : State} (h : s.transformable) : s.accepts .decrypt :=
  ⟨h.1, _, exec_decrypt_of_transformable h⟩

/-- After reset every length is 0, and the empty command is accepted (R60, R142). -/
theorem accepts_applyReset (s : State) (i : Instr) : s.applyReset.accepts i := by
  cases i with
  | derive => exact accepts_derive (derivable_of_empty_seed rfl rfl)
  | encrypt => exact accepts_encrypt (transformable_of_empty rfl rfl rfl)
  | decrypt => exact accepts_decrypt (transformable_of_empty rfl rfl rfl)

/-- With no access among them, events leave an idle engine as it is or reset it. -/
theorem accepts_of_perform {s t : State} {i : Instr} {es : List Event} (h : s.accepts i)
    (hes : es.filterMap Event.access? = []) (hperform : s.perform es = some t) : t.accepts i := by
  induction es generalizing s with
  | nil => cases hperform; exact h
  | cons e es ih =>
    obtain ⟨u, hu, hrest⟩ := perform_cons_iff.mp hperform
    cases e with
    | access a => cases hes
    | engine =>
      have hturn : s.engineTurn = s := by simp [State.engineTurn, h.1]
      obtain rfl : u = s := (Host.Outcome.next.inj hu).symm.trans hturn
      exact ih h hes hrest
    | reset => cases hu; exact ih (accepts_applyReset s i) hes hrest

theorem busy_of_cmdWrite {s u : State} {i : Instr} (h : s.accepts i)
    (hu : applyEvent s (.access (cmdWrite (encode i))) = .next u) : u.busy = true := by
  obtain ⟨-, j, hexec⟩ := h
  have hstarted : Host.Outcome.next u = .next (s.started j) :=
    calc .next u = hostAccess s (cmdWrite (encode i)) := hu.symm
      _ = issueWord s (encode i) := hostAccess_cmdWrite s _
      _ = exec i s := issueWord_of_decode (decode_encode i)
      _ = .next (s.started j) := hexec
  cases hstarted
  rfl

theorem endState_eq_none_of_accepts {s : State} {i : Instr} (h : s.accepts i) {prog : List Stmt} {ks : List Nat}
    (hprog : programAccesses prog ks = [cmdWrite (encode i)]) (es : List Event) : s.endState prog ks es = none := by
  refine Option.eq_none_iff_forall_ne_some.mpr fun t ht => ?_
  obtain ⟨hends, hperform, -, hidle⟩ := endState_eq_some.mp ht
  obtain ⟨haccesses, hlast⟩ := endsProgram_iff.mp hends
  rw [hprog] at haccesses
  obtain rfl | ⟨before, e, rfl⟩ := List.eq_nil_or_concat' es
  · cases haccesses
  obtain ⟨a, rfl⟩ := hlast e List.getLast?_concat
  rw [List.filterMap_append] at haccesses
  obtain ⟨hbefore, ha⟩ := List.append_inj' (s₂ := []) haccesses rfl
  cases ha
  rw [perform_append, Option.bind_eq_some_iff] at hperform
  obtain ⟨m, hm, hwrite⟩ := hperform
  obtain ⟨u, hu, hnil⟩ := perform_cons_iff.mp hwrite
  cases hnil
  rw [busy_of_cmdWrite (accepts_of_perform h hbefore hm) hu] at hidle
  cases hidle

/-- Settles O51: each of the three programs is the one CMD write of its command. -/
theorem noEndStateWhileACommandRuns : Obligations.NoEndStateWhileACommandRuns :=
  fun _ _ es => ⟨fun h => endState_eq_none_of_accepts (accepts_derive h) rfl es, fun h =>
    ⟨endState_eq_none_of_accepts (accepts_encrypt h) rfl es,
      endState_eq_none_of_accepts (accepts_decrypt h) rfl es⟩⟩

end Sys2Proof.Machine
end
